-- ==== Sys2Proof/Word.lean ====
section
/-! DEFINITION. The word types of the hardware: bytes, 16-bit words and addresses, and register indices. -/

namespace Sys2Proof

/-- An 8-bit unsigned value: a V register, a timer, a memory byte, the immediate `NN` (R7, R11). -/
abbrev Byte := BitVec 8

/-- A 16-bit instruction word (R70). -/
abbrev Word := BitVec 16

/-- A 16-bit unsigned address: `pc`, `I`, a stacked return address (R7, R25, R26, R27). -/
abbrev Addr := BitVec 16

/-- The 12-bit unsigned address field `NNN` of an instruction word (R71, R72). -/
abbrev Addr12 := BitVec 12

/-- A 4-bit unsigned field of an instruction word, such as the row count `N` (R15, R71). -/
abbrev Nibble := BitVec 4

/-- The index of a general register, 0 to 15; it comes from a 4-bit field and is always in range (R21, R22). -/
abbrev Reg := Fin 16

/-- The index of a key, 0 to 15 (R33). -/
abbrev KeyIndex := Fin 16

end Sys2Proof
end

