-- ==== Sys2Proof/Config.lean ====
section
/-! DEFINITION. What an implementation fixes (the parameters of R7) and the one free value, the random byte of R155.
The font table and its place are parameters of R7 too: they stand in Machine/Memory.lean. -/

namespace Sys2Proof.Config

/-- `NUM_V` of R7: the number of general byte registers. -/
abbrev numV : Nat := 16

/-- `STACK_CAP` of R7: the call stack's capacity in frames. -/
abbrev stackCap : Nat := 16

/-- `NUM_KEYS` of R7: the number of keys. -/
abbrev numKeys : Nat := 16

/-- `MEM_SIZE` of R7: the size of memory in bytes (the spec's decision D2). -/
abbrev memSize : Nat := 4096

/-- `PROGRAM_START` of R7: where a program begins and where the writable region begins (the spec's decision D3). -/
abbrev programStart : Nat := 0x200

/-- `DISPLAY_W` of R7: columns of the display (the spec's decision D5). -/
abbrev displayW : Nat := 64

/-- `DISPLAY_H` of R7: rows of the display (the spec's decision D5). -/
abbrev displayH : Nat := 32

/-- `VF` of R7: the index of the flag register in the V file (the spec's decision D6). -/
abbrev vf : Reg := 15

/-- `random_byte()` of R155. FREE VALUE: the byte drawn by the `n`-th CXNN of a machine. It has no body, so nothing
can be proved of a value of it, and what is proved with it holds for every sequence of draws. Log entry 1. -/
opaque randomByte : Nat → Byte

end Sys2Proof.Config
end

