-- ==== Sys2Proof/Syntax.lean ====
section
/-! DEFINITION. The instruction set: one constructor for each of the 34 rows of spec/opcode_table.json (R2, R75).
Every field of an encoding is kept, also one the instruction ignores (the `Y` of the two shifts), so that an
instruction and its word determine each other. -/

namespace Sys2Proof

/-- The 34 instructions of R75, in the table's order. `x` and `y` are the register indices `X` and `Y`, `nn` the low
byte, `nnn` the low 12 bits, `n` the low nibble (R10, R71). -/
inductive Instr where
  /-- `00E0` CLS, clear-screen (R110). -/
  | cls
  /-- `00EE` RET, return (R120). -/
  | ret
  /-- `1NNN` JP addr, jump (R121). -/
  | jp (nnn : Addr12)
  /-- `2NNN` CALL addr, call (R122). -/
  | call (nnn : Addr12)
  /-- `3XNN` SE Vx, byte, skip if equal immediate (R130). -/
  | seImm (x : Reg) (nn : Byte)
  /-- `4XNN` SNE Vx, byte, skip if not equal immediate (R131). -/
  | sneImm (x : Reg) (nn : Byte)
  /-- `5XY0` SE Vx, Vy, skip if registers equal (R132). -/
  | seReg (x y : Reg)
  /-- `6XNN` LD Vx, byte, load immediate (R141). -/
  | ldImm (x : Reg) (nn : Byte)
  /-- `7XNN` ADD Vx, byte, add immediate (R142). -/
  | addImm (x : Reg) (nn : Byte)
  /-- `8XY0` LD Vx, Vy, copy register (R143). -/
  | ldReg (x y : Reg)
  /-- `8XY1` OR Vx, Vy (R144). -/
  | orReg (x y : Reg)
  /-- `8XY2` AND Vx, Vy (R145). -/
  | andReg (x y : Reg)
  /-- `8XY3` XOR Vx, Vy (R146). -/
  | xorReg (x y : Reg)
  /-- `8XY4` ADD Vx, Vy, add registers (R147). -/
  | addReg (x y : Reg)
  /-- `8XY5` SUB Vx, Vy, subtract registers (R148). -/
  | sub (x y : Reg)
  /-- `8XY6` SHR Vx, Vy, shift right (R150). -/
  | shr (x y : Reg)
  /-- `8XY7` SUBN Vx, Vy, reverse subtract (R151). -/
  | subn (x y : Reg)
  /-- `8XYE` SHL Vx, Vy, shift left (R153). -/
  | shl (x y : Reg)
  /-- `9XY0` SNE Vx, Vy, skip if registers not equal (R133). -/
  | sneReg (x y : Reg)
  /-- `ANNN` LD I, addr, load address register (R160). -/
  | ldI (nnn : Addr12)
  /-- `BNNN` JP V0, addr, jump with offset (R125). -/
  | jpV0 (nnn : Addr12)
  /-- `CXNN` RND Vx, byte, random (R154). -/
  | rnd (x : Reg) (nn : Byte)
  /-- `DXYN` DRW Vx, Vy, nibble, draw sprite (R112). -/
  | drw (x y : Reg) (n : Nibble)
  /-- `EX9E` SKP Vx, skip if key pressed (R134). -/
  | skp (x : Reg)
  /-- `EXA1` SKNP Vx, skip if key not pressed (R135). -/
  | sknp (x : Reg)
  /-- `FX07` LD Vx, DT, read delay timer (R170). -/
  | ldVxDt (x : Reg)
  /-- `FX0A` LD Vx, K, wait for key (R171). -/
  | ldVxK (x : Reg)
  /-- `FX15` LD DT, Vx, set delay timer (R173). -/
  | ldDtVx (x : Reg)
  /-- `FX18` LD ST, Vx, set sound timer (R174). -/
  | ldStVx (x : Reg)
  /-- `FX1E` ADD I, Vx, add to address register (R161). -/
  | addI (x : Reg)
  /-- `FX29` LD F, Vx, font address (R162). -/
  | ldF (x : Reg)
  /-- `FX33` LD B, Vx, store BCD (R163). -/
  | ldB (x : Reg)
  /-- `FX55` LD [I], Vx, register dump (R165). -/
  | ldMemVx (x : Reg)
  /-- `FX65` LD Vx, [I], register load (R166). -/
  | ldVxMem (x : Reg)
  deriving DecidableEq, Repr

/-- The pseudo-instruction `SHR Vx`, which stands for `SHR Vx, V0` (R81). -/
def Instr.shrPseudo (x : Reg) : Instr := .shr x 0

/-- The pseudo-instruction `SHL Vx`, which stands for `SHL Vx, V0` (R81). -/
def Instr.shlPseudo (x : Reg) : Instr := .shl x 0

end Sys2Proof
end

