-- ==== Sys2Proof/WellFormed.lean ====
section
/-! DEFINITION. Well-formedness of operands. The types of Syntax.lean admit no out-of-range field, so the check is on
the NUMBERS an operand is written with, before they become fields (R22, R71, R80): an operand list that passes is
turned into the fields it fills, one that does not is refused. -/

namespace Sys2Proof

/-- The kinds of numeric operand an instruction is written with (R71, R80). -/
inductive OperandKind where
  /-- `Vx` or `Vy`: a register index, filling `X` or `Y`. -/
  | reg
  /-- `addr`: a 12-bit address, filling `NNN`. -/
  | addr
  /-- `byte`: an 8-bit immediate, filling `NN`. -/
  | byte
  /-- `nibble`: a 4-bit row count, filling `N`. -/
  | nibble
  deriving DecidableEq, Repr

/-- The number of values the operand's field can hold (R71). -/
def OperandKind.bound : OperandKind → Nat
  | .reg => 16
  | .addr => 4096
  | .byte => 256
  | .nibble => 16

/-- R80: an assembler must refuse `addr` above 0xFFF, `byte` above 0xFF and `nibble` above 0xF; register indices
are 0 to 15. -/
def OperandKind.accepts (k : OperandKind) (n : Nat) : Bool :=
  decide (n < k.bound)

/-- The numeric operands of an instruction, in the order its syntax lists them (R80), each with its kind. -/
def Instr.operands : Instr → List (OperandKind × Nat)
  | .cls | .ret => []
  | .jp nnn | .call nnn | .ldI nnn | .jpV0 nnn => [(.addr, nnn.toNat)]
  | .seImm x nn | .sneImm x nn | .ldImm x nn | .addImm x nn | .rnd x nn => [(.reg, x.val), (.byte, nn.toNat)]
  | .seReg x y | .ldReg x y | .orReg x y | .andReg x y | .xorReg x y | .addReg x y | .sub x y | .shr x y
  | .subn x y | .shl x y | .sneReg x y => [(.reg, x.val), (.reg, y.val)]
  | .drw x y n => [(.reg, x.val), (.reg, y.val), (.nibble, n.toNat)]
  | .skp x | .sknp x | .ldVxDt x | .ldVxK x | .ldDtVx x | .ldStVx x | .addI x | .ldF x | .ldB x | .ldMemVx x
  | .ldVxMem x => [(.reg, x.val)]

/-- An operand list is well formed when every number fits its field. -/
def operandsFit (os : List (OperandKind × Nat)) : Bool :=
  os.all fun o => o.1.accepts o.2

/-- An instruction is well formed when all its operands fit their fields. The types of its fields see to it: every
instruction is well formed (Laws/PerInstr.lean). -/
def Instr.wellFormed (i : Instr) : Bool :=
  operandsFit i.operands

/-- The address operand written as the number `n`, refused when it is above 0xFFF (R80). -/
def Addr12.ofOperand (n : Nat) : Option Addr12 :=
  if OperandKind.addr.accepts n then some (BitVec.ofNat 12 n) else none

/-- The byte operand written as the number `n`, refused when it is above 0xFF (R80). -/
def Byte.ofOperand (n : Nat) : Option Byte :=
  if OperandKind.byte.accepts n then some (BitVec.ofNat 8 n) else none

/-- The nibble operand written as the number `n`, refused when it is above 0xF (R80). -/
def Nibble.ofOperand (n : Nat) : Option Nibble :=
  if OperandKind.nibble.accepts n then some (BitVec.ofNat 4 n) else none

/-- The register operand written as the index `n`, refused when it is above 15 (R22, R80). -/
def Reg.ofOperand (n : Nat) : Option Reg :=
  if h : n < 16 then some ⟨n, h⟩ else none

end Sys2Proof
end

