-- ==== Sys2Proof/Decode.lean ====
section
/-! DEFINITION. The decoder (R70 to R79), total on all words and bytes, and after it the encoder, written from the same
encoding table (R75). The words themselves are 16 bits, stored high byte first (R56). -/

namespace Sys2Proof

/-! ### Bytes and words -/

/-- `hi ++ lo`: the word whose bits 15:8 are the byte at the lower address (R56). -/
def wordOfBytes (hi lo : Byte) : Word := hi ++ lo

/-- The byte of a word that is stored at the lower address (R56). -/
def highByte (w : Word) : Byte := w.extractLsb' 8 8

/-- The byte of a word that is stored at the higher address (R56). -/
def lowByte (w : Word) : Byte := w.extractLsb' 0 8

/-! ### The fields of R71 -/

/-- `op = w[15:12]`, the leading nibble. -/
def opField (w : Word) : Nibble := w.extractLsb' 12 4

/-- `X = w[11:8]`, the first register index. -/
def xField (w : Word) : Reg := (w.extractLsb' 8 4).toFin

/-- `Y = w[7:4]`, the second register index. -/
def yField (w : Word) : Reg := (w.extractLsb' 4 4).toFin

/-- `N = w[3:0]`, the low nibble. -/
def nField (w : Word) : Nibble := w.extractLsb' 0 4

/-- `NN = w[7:0]`, the low byte. -/
def nnField (w : Word) : Byte := w.extractLsb' 0 8

/-- `NNN = w[11:0]`, the low 12 bits. -/
def nnnField (w : Word) : Addr12 := w.extractLsb' 0 12

/-! ### The decode function of R76 -/

/-- The 0 group: the two exact words; every other `0NNN` is UNKNOWN (R76, R77). -/
def decodeGroup0 (w : Word) : Option Instr :=
  if w = 0x00E0 then some .cls else if w = 0x00EE then some .ret else none

/-- The 8 group, selected by `N` (R76). -/
def decodeGroup8 (w : Word) : Option Instr :=
  match (nField w).toNat with
  | 0x0 => some (.ldReg (xField w) (yField w))
  | 0x1 => some (.orReg (xField w) (yField w))
  | 0x2 => some (.andReg (xField w) (yField w))
  | 0x3 => some (.xorReg (xField w) (yField w))
  | 0x4 => some (.addReg (xField w) (yField w))
  | 0x5 => some (.sub (xField w) (yField w))
  | 0x6 => some (.shr (xField w) (yField w))
  | 0x7 => some (.subn (xField w) (yField w))
  | 0xE => some (.shl (xField w) (yField w))
  | _ => none

/-- The E group, selected by the whole low byte (R74, R76). -/
def decodeGroupE (w : Word) : Option Instr :=
  if nnField w = 0x9E then some (.skp (xField w))
  else if nnField w = 0xA1 then some (.sknp (xField w))
  else none

/-- The F group, selected by the whole low byte (R74, R76). -/
def decodeGroupF (w : Word) : Option Instr :=
  if nnField w = 0x07 then some (.ldVxDt (xField w))
  else if nnField w = 0x0A then some (.ldVxK (xField w))
  else if nnField w = 0x15 then some (.ldDtVx (xField w))
  else if nnField w = 0x18 then some (.ldStVx (xField w))
  else if nnField w = 0x1E then some (.addI (xField w))
  else if nnField w = 0x29 then some (.ldF (xField w))
  else if nnField w = 0x33 then some (.ldB (xField w))
  else if nnField w = 0x55 then some (.ldMemVx (xField w))
  else if nnField w = 0x65 then some (.ldVxMem (xField w))
  else none

/-- The decode function of R76, total on all 65536 words; `none` is UNKNOWN. -/
def decodeWord (w : Word) : Option Instr :=
  match (opField w).toNat with
  | 0x0 => decodeGroup0 w
  | 0x1 => some (.jp (nnnField w))
  | 0x2 => some (.call (nnnField w))
  | 0x3 => some (.seImm (xField w) (nnField w))
  | 0x4 => some (.sneImm (xField w) (nnField w))
  | 0x5 => if nField w = 0 then some (.seReg (xField w) (yField w)) else none
  | 0x6 => some (.ldImm (xField w) (nnField w))
  | 0x7 => some (.addImm (xField w) (nnField w))
  | 0x8 => decodeGroup8 w
  | 0x9 => if nField w = 0 then some (.sneReg (xField w) (yField w)) else none
  | 0xA => some (.ldI (nnnField w))
  | 0xB => some (.jpV0 (nnnField w))
  | 0xC => some (.rnd (xField w) (nnField w))
  | 0xD => some (.drw (xField w) (yField w) (nField w))
  | 0xE => decodeGroupE w
  | 0xF => decodeGroupF w
  | _ => none

/-- Why bytes do not decode. -/
inductive DecodeError where
  /-- Fewer than the 2 bytes every instruction has (R79). -/
  | truncated
  /-- The word matches no pattern: UNKNOWN (R76, R77). -/
  | unknownOpcode (w : Word)
  deriving DecidableEq, Repr

/-- Decoding of a byte stream, total: the instruction in the first two bytes (high byte first, R56) and the bytes
after it, or the named reason. -/
def decodeBytes : List Byte → Except DecodeError (Instr × List Byte)
  | hi :: lo :: rest =>
    match decodeWord (wordOfBytes hi lo) with
    | some i => .ok (i, rest)
    | none => .error (.unknownOpcode (wordOfBytes hi lo))
  | _ => .error .truncated

/-! ### The encoder -/

/-- A word of the form `op NNN` (R70). -/
def wordNNN (op : Nibble) (nnn : Addr12) : Word := op ++ nnn

/-- A word of the form `op X NN` (R70). -/
def wordXNN (op : Nibble) (x : Reg) (nn : Byte) : Word := op ++ (BitVec.ofFin x : Nibble) ++ nn

/-- A word of the form `op X Y N` (R70). -/
def wordXYN (op : Nibble) (x y : Reg) (n : Nibble) : Word :=
  op ++ (BitVec.ofFin x : Nibble) ++ (BitVec.ofFin y : Nibble) ++ n

/-- The word of an instruction, from the patterns of R75. -/
def encode : Instr → Word
  | .cls => 0x00E0
  | .ret => 0x00EE
  | .jp nnn => wordNNN 0x1 nnn
  | .call nnn => wordNNN 0x2 nnn
  | .seImm x nn => wordXNN 0x3 x nn
  | .sneImm x nn => wordXNN 0x4 x nn
  | .seReg x y => wordXYN 0x5 x y 0x0
  | .ldImm x nn => wordXNN 0x6 x nn
  | .addImm x nn => wordXNN 0x7 x nn
  | .ldReg x y => wordXYN 0x8 x y 0x0
  | .orReg x y => wordXYN 0x8 x y 0x1
  | .andReg x y => wordXYN 0x8 x y 0x2
  | .xorReg x y => wordXYN 0x8 x y 0x3
  | .addReg x y => wordXYN 0x8 x y 0x4
  | .sub x y => wordXYN 0x8 x y 0x5
  | .shr x y => wordXYN 0x8 x y 0x6
  | .subn x y => wordXYN 0x8 x y 0x7
  | .shl x y => wordXYN 0x8 x y 0xE
  | .sneReg x y => wordXYN 0x9 x y 0x0
  | .ldI nnn => wordNNN 0xA nnn
  | .jpV0 nnn => wordNNN 0xB nnn
  | .rnd x nn => wordXNN 0xC x nn
  | .drw x y n => wordXYN 0xD x y n
  | .skp x => wordXNN 0xE x 0x9E
  | .sknp x => wordXNN 0xE x 0xA1
  | .ldVxDt x => wordXNN 0xF x 0x07
  | .ldVxK x => wordXNN 0xF x 0x0A
  | .ldDtVx x => wordXNN 0xF x 0x15
  | .ldStVx x => wordXNN 0xF x 0x18
  | .addI x => wordXNN 0xF x 0x1E
  | .ldF x => wordXNN 0xF x 0x29
  | .ldB x => wordXNN 0xF x 0x33
  | .ldMemVx x => wordXNN 0xF x 0x55
  | .ldVxMem x => wordXNN 0xF x 0x65

/-- The two bytes of an instruction, in the order they are stored (R56, R79); a data word written `DW` is laid out
the same way (R81). -/
def encodeBytes (i : Instr) : List Byte := [highByte (encode i), lowByte (encode i)]

/-! ### The opcode table of R75, apart from the decoder -/

/-- A row of the opcode table: a word `w` matches it when `w AND mask = bits` (R75). -/
structure OpcodeRow where
  mnemonic : String
  bits : Word
  mask : Word
  deriving DecidableEq, Repr

/-- The match rule of R75. -/
def OpcodeRow.isMatch (r : OpcodeRow) (w : Word) : Bool := w &&& r.mask == r.bits

/-- Rows 1 to 9 of R75. -/
def opcodeRowsLow : List OpcodeRow := [
  ⟨"CLS", 0x00E0, 0xFFFF⟩,
  ⟨"RET", 0x00EE, 0xFFFF⟩,
  ⟨"JP", 0x1000, 0xF000⟩,
  ⟨"CALL", 0x2000, 0xF000⟩,
  ⟨"SE_imm", 0x3000, 0xF000⟩,
  ⟨"SNE_imm", 0x4000, 0xF000⟩,
  ⟨"SE_reg", 0x5000, 0xF00F⟩,
  ⟨"LD_imm", 0x6000, 0xF000⟩,
  ⟨"ADD_imm", 0x7000, 0xF000⟩]

/-- Rows 10 to 18 of R75, the 8 group. -/
def opcodeRowsAlu : List OpcodeRow := [
  ⟨"LD_reg", 0x8000, 0xF00F⟩,
  ⟨"OR", 0x8001, 0xF00F⟩,
  ⟨"AND", 0x8002, 0xF00F⟩,
  ⟨"XOR", 0x8003, 0xF00F⟩,
  ⟨"ADD_reg", 0x8004, 0xF00F⟩,
  ⟨"SUB", 0x8005, 0xF00F⟩,
  ⟨"SHR", 0x8006, 0xF00F⟩,
  ⟨"SUBN", 0x8007, 0xF00F⟩,
  ⟨"SHL", 0x800E, 0xF00F⟩]

/-- Rows 19 to 25 of R75. -/
def opcodeRowsHigh : List OpcodeRow := [
  ⟨"SNE_reg", 0x9000, 0xF00F⟩,
  ⟨"LD_I", 0xA000, 0xF000⟩,
  ⟨"JP_V0", 0xB000, 0xF000⟩,
  ⟨"RND", 0xC000, 0xF000⟩,
  ⟨"DRW", 0xD000, 0xF000⟩,
  ⟨"SKP", 0xE09E, 0xF0FF⟩,
  ⟨"SKNP", 0xE0A1, 0xF0FF⟩]

/-- Rows 26 to 34 of R75, the F group. -/
def opcodeRowsF : List OpcodeRow := [
  ⟨"LD_Vx_DT", 0xF007, 0xF0FF⟩,
  ⟨"LD_Vx_K", 0xF00A, 0xF0FF⟩,
  ⟨"LD_DT_Vx", 0xF015, 0xF0FF⟩,
  ⟨"LD_ST_Vx", 0xF018, 0xF0FF⟩,
  ⟨"ADD_I", 0xF01E, 0xF0FF⟩,
  ⟨"LD_F", 0xF029, 0xF0FF⟩,
  ⟨"LD_B", 0xF033, 0xF0FF⟩,
  ⟨"LD_mem_Vx", 0xF055, 0xF0FF⟩,
  ⟨"LD_Vx_mem", 0xF065, 0xF0FF⟩]

/-- The 34 rows of R75 (spec/opcode_table.json), in the table's order. -/
def opcodeTable : List OpcodeRow := opcodeRowsLow ++ opcodeRowsAlu ++ opcodeRowsHigh ++ opcodeRowsF

/-- The place of an instruction's row in the table, counted from 0. -/
def Instr.rowIndex : Instr → Nat
  | .cls => 0
  | .ret => 1
  | .jp _ => 2
  | .call _ => 3
  | .seImm _ _ => 4
  | .sneImm _ _ => 5
  | .seReg _ _ => 6
  | .ldImm _ _ => 7
  | .addImm _ _ => 8
  | .ldReg _ _ => 9
  | .orReg _ _ => 10
  | .andReg _ _ => 11
  | .xorReg _ _ => 12
  | .addReg _ _ => 13
  | .sub _ _ => 14
  | .shr _ _ => 15
  | .subn _ _ => 16
  | .shl _ _ => 17
  | .sneReg _ _ => 18
  | .ldI _ => 19
  | .jpV0 _ => 20
  | .rnd _ _ => 21
  | .drw _ _ _ => 22
  | .skp _ => 23
  | .sknp _ => 24
  | .ldVxDt _ => 25
  | .ldVxK _ => 26
  | .ldDtVx _ => 27
  | .ldStVx _ => 28
  | .addI _ => 29
  | .ldF _ => 30
  | .ldB _ => 31
  | .ldMemVx _ => 32
  | .ldVxMem _ => 33

/-! ### The host's view of the decoder -/

/-- The instruction the decoder reads from an instruction whose bits are `w`, numbered as spec/opcode_table.json
numbers them: bit 0 is the least significant bit of the 16-bit word, bits above `nbits` are 0. The word's two bytes
are laid out high byte first and given to the decoder. -/
def decodeTableWord (nbits w : Nat) : Option Instr :=
  let word : Word := BitVec.ofNat 16 (w % 2 ^ nbits)
  match decodeBytes [highByte word, lowByte word] with
  | .ok (i, _) => some i
  | .error _ => none

end Sys2Proof
end

