-- ==== Sys2Proof/Machine/State.lean ====
section
/-! DEFINITION. The state aggregate of R20 as plain data, the fatal conditions it can record, and the state after
construction and reset (R43, R200). -/

namespace Sys2Proof.Machine

/-- The kinds of fatal condition of R182, in its order of codes. -/
inductive FaultKind where
  /-- Code 1: a call with 16 frames in use (R183). -/
  | stackOverflow
  /-- Code 2: a return with no frame in use (R184). -/
  | stackUnderflow
  /-- Code 3: a fetch with `pc + 1` outside memory (R185). -/
  | fetchOutOfBounds
  /-- Code 4: the fetched word decodes to UNKNOWN (R186). -/
  | unknownOpcode
  /-- Code 5: a data address outside memory (R187). -/
  | memoryOutOfBounds
  /-- Code 6: a write address in the reserved region (R188). -/
  | reservedWrite
  /-- Code 7: a key index above 15 (R189). -/
  | keyIndexOutOfRange
  deriving DecidableEq, Repr

/-- The fault record of R180. Its `code` is a function of its kind and is not stored twice (FaultRecord.code). -/
structure FaultRecord where
  /-- Which fatal condition. -/
  kind : FaultKind
  /-- The address of the instruction whose step faulted: the `pc` at the start of the step. -/
  addr : Addr
  /-- The raw instruction word; none only for a fetch outside memory. -/
  word : Option Word
  /-- The first failing data address, for memoryOutOfBounds and reservedWrite; it may exceed 16 bits. -/
  dataAddr : Option Nat
  deriving DecidableEq, Repr

/-- The engine's operating state (R30). -/
inductive Mode where
  /-- Every step fetches and executes. -/
  | running
  /-- Entered by wait-for-key; carries the register the key index will be written to. -/
  | awaitingKey (x : Reg)
  /-- Entered by any fatal condition, left only by reset; carries the fault record. -/
  | halted (f : FaultRecord)
  deriving DecidableEq, Repr

/-- The bytes of memory that differ from what memory holds after reset, as (address, byte) pairs in canonical form
(Memory.wf of Machine/Memory.lean). -/
abbrev Memory := List Host.Cell

/-- The display of R32, row-major: one vector of cells for each row, row 0 at the top, column 0 at the left. -/
abbrev Display := Vector (Vector Bool Config.displayW) Config.displayH

/-- The diagnostic the driver receives from a step (R90, R180). `step` itself never answers Host.Outcome.fault: a fatal
condition is a state transition into Halted (R181), so its step answers a next state that holds the record. -/
inductive Fault where
  /-- `Fault(f)`: the step raised a fatal condition, or the machine was already halted by one (R90, R98). Raised by
  stepReport of Machine/Interface.lean, which reads it from the state. Safe: no effect is left out. -/
  | fatal (f : FaultRecord)
  deriving DecidableEq, Repr

/-- The calls of the driver for which the machine has no transition. No step and no instruction refuses. -/
inductive Refusal where
  /-- An instruction without a meaning, by its mnemonic; no arm of exec answers it. Safe. -/
  | notModelled (mnemonic : String)
  /-- `set_key` with an index above 15, for which the operation is not defined (R38). Raised by transact. Safe. -/
  | keyIndexUndefined (index : Nat)
  /-- `load_program` of more bytes than fit from program-start, a loader-level error (R203). Raised by transact.
  Safe. -/
  | programTooLong (length : Nat)
  deriving DecidableEq, Repr

/-- The state aggregate of R20: exactly its components. -/
structure Aggregate where
  /-- `V[0]` to `V[15]`, the general byte registers; `V[15]` is the flag register (R21, R23). -/
  v : Vector Byte Config.numV
  /-- `I`, the address register (R25). -/
  i : Addr
  /-- `pc`, the program counter (R26). -/
  pc : Addr
  /-- `stack[0]` to `stack[15]`, the call stack's slots (R27). -/
  stack : Vector Addr Config.stackCap
  /-- `sp`, the number of active frames, 0 to 16 (R27). -/
  sp : Fin (Config.stackCap + 1)
  /-- `mem`, the memory (R31, R50). -/
  mem : Memory
  /-- `Disp`, the display (R32). -/
  disp : Display
  /-- `Key[0]` to `Key[15]`, true when pressed (R33). -/
  key : Vector Bool Config.numKeys
  /-- `DT`, the delay timer (R29). -/
  dt : Byte
  /-- `ST`, the sound timer (R29). -/
  st : Byte
  /-- `mode`, the operating state (R30). -/
  mode : Mode
  deriving DecidableEq, Repr

/-- What the model steps: the machine, which is the aggregate of R20 and nothing else, and beside it the place reached in
the input from outside that R155 draws from. -/
structure State extends Aggregate where
  /-- The MODEL's own field, no part of the machine: how many random bytes have been drawn; it selects the next free
  value (log entry 1). -/
  draws : Nat
  deriving DecidableEq, Repr

/-- The machine after `construct` and after `reset` (R43, R200, R201): memory lists nothing, so every byte reads as the
font table or zero. -/
def Aggregate.reset : Aggregate where
  v := Vector.replicate Config.numV 0
  i := 0
  pc := BitVec.ofNat 16 Config.programStart
  stack := Vector.replicate Config.stackCap 0
  sp := 0
  mem := []
  disp := Vector.replicate Config.displayH (Vector.replicate Config.displayW false)
  key := Vector.replicate Config.numKeys false
  dt := 0
  st := 0
  mode := .running

/-- The state after `construct` (R200): the constructed machine, with no byte drawn yet (log entry 1). -/
def State.reset : State where
  toAggregate := Aggregate.reset
  draws := 0

end Sys2Proof.Machine
end

