-- ==== Sys2Proof/Machine/Memory.lean ====
section
/-! DEFINITION. The memory array (R50 to R61): what it holds after reset, reading and writing one byte, the checks of
an address, and sequences of bytes. -/

namespace Sys2Proof.Machine

/-! ### Contents after reset -/

/-- `FONT_BASE` of R7: the address of glyph 0 (the spec's decision D4). -/
def fontBase : Nat := 0x000

/-- `GLYPH_SIZE` of R7: bytes per glyph (the spec's decision D4). -/
def glyphSize : Nat := 5

/-- Glyphs 0 to 7 of R57, top row first. -/
def glyphsLow : List (List Byte) := [
  [0xF0, 0x90, 0x90, 0x90, 0xF0],
  [0x20, 0x60, 0x20, 0x20, 0x70],
  [0xF0, 0x10, 0xF0, 0x80, 0xF0],
  [0xF0, 0x10, 0xF0, 0x10, 0xF0],
  [0x90, 0x90, 0xF0, 0x10, 0x10],
  [0xF0, 0x80, 0xF0, 0x10, 0xF0],
  [0xF0, 0x80, 0xF0, 0x90, 0xF0],
  [0xF0, 0x10, 0x20, 0x40, 0x40]]

/-- Glyphs 8 to F of R57, top row first. -/
def glyphsHigh : List (List Byte) := [
  [0xF0, 0x90, 0xF0, 0x90, 0xF0],
  [0xF0, 0x90, 0xF0, 0x10, 0xF0],
  [0xF0, 0x90, 0xF0, 0x90, 0x90],
  [0xE0, 0x90, 0xE0, 0x90, 0xE0],
  [0xF0, 0x80, 0x80, 0x80, 0xF0],
  [0xE0, 0x90, 0x90, 0x90, 0xE0],
  [0xF0, 0x80, 0xF0, 0x80, 0xF0],
  [0xF0, 0x80, 0xF0, 0x80, 0x80]]

/-- The font table of R57: 16 glyphs of 5 bytes, glyph `d` at `FONT_BASE + 5*d`. -/
def fontTable : List Byte := (glyphsLow ++ glyphsHigh).flatten

/-- What an address reads as while memory lists nothing for it: its contents after reset, the font table from
`FONT_BASE` on and zero elsewhere (R43, R51, R57). -/
def Memory.blank (a : Nat) : Byte :=
  if fontBase ≤ a then fontTable.getD (a - fontBase) 0 else 0

/-! ### One byte -/

/-- The byte at an address: the one listed for it, or its contents after reset (R53). -/
def Memory.read : Memory → Nat → Byte
  | [], a => Memory.blank a
  | (c, b) :: m, a => if c = a then b else Memory.read m a

/-- Lists `b` for the address `a` in a memory sorted by address, replacing what was listed. -/
def Memory.insert : Memory → Nat → Byte → Memory
  | [], a, b => [(a, b)]
  | (c, d) :: m, a, b =>
    if a < c then (a, b) :: (c, d) :: m
    else if a = c then (a, b) :: m
    else (c, d) :: Memory.insert m a b

/-- Unlists the address `a` in a memory sorted by address. -/
def Memory.erase : Memory → Nat → Memory
  | [], _ => []
  | (c, d) :: m, a => if a = c then m else (c, d) :: Memory.erase m a

/-- `mem[a] <- b` (R54), keeping the canonical form: a byte equal to the contents after reset is not listed. -/
def Memory.write (m : Memory) (a : Nat) (b : Byte) : Memory :=
  if b = Memory.blank a then m.erase a else m.insert a b

/-- Canonical form from the address `lo` on. -/
def Memory.wfFrom : Nat → Memory → Bool
  | _, [] => true
  | lo, (a, b) :: m => decide (lo ≤ a) && (b != Memory.blank a) && Memory.wfFrom (a + 1) m

/-- The canonical form: addresses strictly rising, and no entry equal to what its address reads as unlisted. -/
def Memory.wf (m : Memory) : Bool := Memory.wfFrom 0 m

/-! ### Checks of an address -/

/-- The check of `MemRead` (R53): which fault a read of the address raises, if any. -/
def readCheck (a : Nat) : Option FaultKind :=
  if Config.memSize ≤ a then some .memoryOutOfBounds else none

/-- The checks of `MemWrite`, in their order (R54, R190): which fault a write of the address raises, if any. -/
def writeCheck (a : Nat) : Option FaultKind :=
  if Config.memSize ≤ a then some .memoryOutOfBounds
  else if a < Config.programStart then some .reservedWrite
  else none

/-- R55: the fault and the address of the first of the `n` addresses from `a` on, in ascending order, that fails its
check. -/
def firstFailing (check : Nat → Option FaultKind) (a : Nat) : Nat → Option (FaultKind × Nat)
  | 0 => none
  | n + 1 =>
    match check a with
    | some k => some (k, a)
    | none => firstFailing check (a + 1) n

/-! ### Sequences of bytes, upward from an address (R56) -/

/-- The `n` bytes from the address `a` on. -/
def Memory.readBytes (m : Memory) (a : Nat) : Nat → List Byte
  | 0 => []
  | n + 1 => m.read a :: m.readBytes (a + 1) n

/-- Writes the bytes in order from the address `a` on. -/
def Memory.writeBytes (m : Memory) (a : Nat) : List Byte → Memory
  | [] => m
  | b :: bs => (m.write a b).writeBytes (a + 1) bs

end Sys2Proof.Machine
end

