-- ==== Sys2Proof/Machine/Ops.lean ====
section
/-! DEFINITION. The named operations every meaning is written over: registers, program counter, call stack, timers, and
the taking of a fatal condition, which is this hardware's exception entry (R181, R192); it has no return (R193). -/

namespace Sys2Proof.Machine

/-- The outcome of executing one instruction or one step. -/
abbrev Result := Host.Outcome State Fault Refusal

/-! ### Registers -/

/-- `V[r]` (R12, R21). -/
def State.readV (s : State) (r : Reg) : Byte := s.v[r.val]'r.isLt

/-- `V[r] <- b` (R12, R21). -/
def State.writeV (s : State) (r : Reg) (b : Byte) : State := { s with v := s.v.set r.val b r.isLt }

/-- `V[r] <- b1`, `V[r+1] <- b2`, and so on upward, as far as there are registers (R166). -/
def State.writeVs (s : State) (r : Nat) : List Byte → State
  | [] => s
  | b :: bs => if h : r < 16 then (s.writeV ⟨r, h⟩ b).writeVs (r + 1) bs else s

/-- `V[r]`, `V[r+1]`, ..., `n` of them, as far as there are registers (R165). -/
def State.readVs (s : State) (r : Nat) : Nat → List Byte
  | 0 => []
  | n + 1 => if h : r < 16 then s.readV ⟨r, h⟩ :: s.readVs (r + 1) n else []

/-- `I <- a` (R12, R25). -/
def State.setI (s : State) (a : Addr) : State := { s with i := a }

/-- `pc <- a` (R12, R26); no value is checked when it is written (R95). -/
def State.setPc (s : State) (a : Addr) : State := { s with pc := a }

/-- The fetch's `pc <- pc + 2` (R26, R92), which every instruction's meaning begins with. -/
def State.advance (s : State) : State := s.setPc (s.pc + 2)

/-- A conditional skip: "advance `pc` by 2 more" (R95). -/
def State.skipIf (s : State) (c : Bool) : State := if c then s.setPc (s.pc + 2) else s

/-! ### Memory, display, timers, mode -/

/-- Replaces the memory. -/
def State.setMem (s : State) (m : Memory) : State := { s with mem := m }

/-- Replaces the display. -/
def State.setDisp (s : State) (d : Display) : State := { s with disp := d }

/-- `DT <- b` (R29). -/
def State.setDt (s : State) (b : Byte) : State := { s with dt := b }

/-- `ST <- b` (R29). -/
def State.setSt (s : State) (b : Byte) : State := { s with st := b }

/-- `mode <- m` (R30). -/
def State.setMode (s : State) (m : Mode) : State := { s with mode := m }

/-- The byte the next `draw random_byte()` takes: a free value (R155, log entry 1). -/
def State.nextRandom (s : State) : Byte := Config.randomByte s.draws

/-- The draw is taken: the next one is another byte (R155, log entry 1). -/
def State.drawn (s : State) : State := { s with draws := s.draws + 1 }

/-! ### The call stack of R27 -/

/-- `Push(a)`; none when all 16 frames are in use. -/
def State.push (s : State) (a : Addr) : Option State :=
  if h : s.sp.val < Config.stackCap then
    some { s with stack := s.stack.set s.sp.val a h, sp := ⟨s.sp.val + 1, by omega⟩ }
  else none

/-- `Pop()`: the popped address, and the state with one frame less, the slot keeping its value (R28); none when no
frame is in use. -/
def State.pop (s : State) : Option (Addr × State) :=
  if h : 0 < s.sp.val then
    have lt := s.sp.isLt
    some (s.stack[s.sp.val - 1]'(by omega), { s with sp := ⟨s.sp.val - 1, by omega⟩ })
  else none

/-! ### Fatal conditions -/

/-- The numeric code of a fatal condition, 1 to 7 (R182; the spec's decision D32). -/
def FaultKind.code : FaultKind → Nat
  | .stackOverflow => 1
  | .stackUnderflow => 2
  | .fetchOutOfBounds => 3
  | .unknownOpcode => 4
  | .memoryOutOfBounds => 5
  | .reservedWrite => 6
  | .keyIndexOutOfRange => 7

/-- The `code` of the fault record of R180. -/
def FaultRecord.code (f : FaultRecord) : Nat := f.kind.code

/-- The fault's effect on the state: everything is as at the start of the step except `mode` (R181). -/
def State.halt (s : State) (f : FaultRecord) : State := s.setMode (.halted f)

/-- Taking a fatal condition (R180, R181, R192), from the state at the START of the step, whose `pc` is the address of
the faulting instruction: the machine halts with the record and nothing else changes. -/
def raise (s : State) (kind : FaultKind) (word : Option Word) (dataAddr : Option Nat) : Result :=
  .next (s.halt { kind := kind, addr := s.pc, word := word, dataAddr := dataAddr })

/-- R55: checks the `n` addresses from `I` on, in ascending order, before anything changes; the first that fails raises
its fault from the state `s` at the start of the step, and if none does the instruction goes on to `done`. -/
def checked (check : Nat → Option FaultKind) (n : Nat) (ins : Instr) (s done : State) : Result :=
  match firstFailing check s.i.toNat n with
  | some (k, a) => raise s k (some (encode ins)) (some a)
  | none => .next done

end Sys2Proof.Machine
end

