-- ==== Sys2Proof/Machine/Operands.lean ====
section
/-! DEFINITION. The operand forms of R72: register, immediate byte, 12-bit address, memory through `I`, key index,
and the source of a shift. -/

namespace Sys2Proof.Machine

/-- `zext_16(NNN)`: the 12-bit address as a 16-bit address (R72). -/
def addrOperand (nnn : Addr12) : Addr := nnn.setWidth 16

/-- `zext_16(V[x])`: a register's byte as a 16-bit value (R11, R125, R161, R162). -/
def State.wideV (s : State) (x : Reg) : Addr := (s.readV x).setWidth 16

/-- The address `I + k`, a natural number that may exceed 16 bits (R53, R72). -/
def State.memOperand (s : State) (k : Nat) : Nat := s.i.toNat + k

/-- `SHIFT_READS_VY` of R7: whether the shifts read `V[Y]`; false for this hardware. -/
def shiftReadsVy : Bool := false

/-- The source of the two shifts: `V[X]`, the destination register (R150, R153). -/
def State.shiftSource (s : State) (x y : Reg) : Byte := if shiftReadsVy then s.readV y else s.readV x

/-- The key that the value of `V[x]` names, none when the value is above 15 (R134, R135). -/
def State.keyOperand (s : State) (x : Reg) : Option KeyIndex :=
  if h : (s.readV x).toNat < 16 then some ⟨(s.readV x).toNat, h⟩ else none

/-- `Key[k]` (R12, R33). -/
def State.readKey (s : State) (k : KeyIndex) : Bool := s.key[k.val]'k.isLt

end Sys2Proof.Machine
end

