-- ==== Sys2Proof/Machine/Flags.lean ====
section
/-! DEFINITION. The byte results and the flags of the register arithmetic (R24, R140): every flag is computed from
operand values read before the instruction writes anything, and it is the last write. -/

namespace Sys2Proof.Machine

/-- A flag's value in the flag register: 1 or 0 (R24). -/
def flagByte (c : Bool) : Byte := if c then 1 else 0

/-- The carry of an addition: the unsigned sum exceeds 255 (R140, R147). -/
def carry (a b : Byte) : Bool := decide (255 < a.toNat + b.toNat)

/-- No borrow of the subtraction `a - b`: `a >= b` (R140, R148, R151). -/
def noBorrow (a b : Byte) : Bool := decide (b.toNat ≤ a.toNat)

/-- The bit a right shift shifts out: the least significant bit (R150). -/
def shiftedOutRight (a : Byte) : Bool := a.getLsbD 0

/-- The bit a left shift shifts out: the most significant bit (R153). -/
def shiftedOutLeft (a : Byte) : Bool := a.getLsbD 7

/-- Writes the flag register `VF = V[15]` (R23, R24). -/
def State.writeFlag (s : State) (c : Bool) : State := s.writeV Config.vf (flagByte c)

/-- Writes the result, and then the flag as the last write, so that with `x = 15` the flag remains (R24, R140, R149). -/
def State.writeWithFlag (s : State) (x : Reg) (b : Byte) (c : Bool) : State := (s.writeV x b).writeFlag c

end Sys2Proof.Machine
end

