-- ==== Sys2Proof/Machine/Alu.lean ====
section
/-! DEFINITION. Register loads and arithmetic: 6XNN, 7XNN, 8XY0 to 8XY7, 8XYE, CXNN (R140 to R155). All operands are
read from `s`, the state before the instruction writes anything. -/

namespace Sys2Proof.Machine

/-- `6XNN` load immediate: `V[X] <- NN` (R141). -/
def execLdImm (x : Reg) (nn : Byte) (s : State) : Result :=
  .next (s.advance.writeV x nn)

/-- `7XNN` add immediate: `V[X] <- (V[X] + NN) mod 256`, no flag (R142). -/
def execAddImm (x : Reg) (nn : Byte) (s : State) : Result :=
  .next (s.advance.writeV x (s.readV x + nn))

/-- `8XY0` copy register: `V[X] <- V[Y]` (R143). -/
def execLdReg (x y : Reg) (s : State) : Result :=
  .next (s.advance.writeV x (s.readV y))

/-- `8XY1` bitwise OR, no flag (R144). -/
def execOrReg (x y : Reg) (s : State) : Result :=
  .next (s.advance.writeV x (s.readV x ||| s.readV y))

/-- `8XY2` bitwise AND, no flag (R145). -/
def execAndReg (x y : Reg) (s : State) : Result :=
  .next (s.advance.writeV x (s.readV x &&& s.readV y))

/-- `8XY3` bitwise XOR, no flag (R146). -/
def execXorReg (x y : Reg) (s : State) : Result :=
  .next (s.advance.writeV x (s.readV x ^^^ s.readV y))

/-- `8XY4` add registers, `VF` = carry (R147). -/
def execAddReg (x y : Reg) (s : State) : Result :=
  .next (s.advance.writeWithFlag x (s.readV x + s.readV y) (carry (s.readV x) (s.readV y)))

/-- `8XY5` subtract registers, `VF` = no borrow (R148). -/
def execSub (x y : Reg) (s : State) : Result :=
  .next (s.advance.writeWithFlag x (s.readV x - s.readV y) (noBorrow (s.readV x) (s.readV y)))

/-- `8XY6` shift right by one, `VF` = old bit 0; `Y` is ignored (R150). -/
def execShr (x y : Reg) (s : State) : Result :=
  .next (s.advance.writeWithFlag x (s.shiftSource x y >>> 1) (shiftedOutRight (s.shiftSource x y)))

/-- `8XY7` reverse subtract: `V[X] <- V[Y] - V[X]`, `VF` = no borrow (R151). -/
def execSubn (x y : Reg) (s : State) : Result :=
  .next (s.advance.writeWithFlag x (s.readV y - s.readV x) (noBorrow (s.readV y) (s.readV x)))

/-- `8XYE` shift left by one, `VF` = old bit 7; `Y` is ignored (R153). -/
def execShl (x y : Reg) (s : State) : Result :=
  .next (s.advance.writeWithFlag x (s.shiftSource x y <<< 1) (shiftedOutLeft (s.shiftSource x y)))

/-- `CXNN` random: `V[X] <- random_byte() AND NN`; the draw is taken whatever `NN` is (R154, R155). -/
def execRnd (x : Reg) (nn : Byte) (s : State) : Result :=
  .next (s.advance.drawn.writeV x (s.nextRandom &&& nn))

end Sys2Proof.Machine
end

