-- ==== Sys2Proof/Machine/Control.lean ====
section
/-! DEFINITION. Control transfer: 00EE, 1NNN, 2NNN, BNNN (R120 to R126). No target is checked here (R95, R126). -/

namespace Sys2Proof.Machine

/-- `00EE` return: pops the call stack into `pc`; with no frame in use StackUnderflow (R120, R184). -/
def execRet (s : State) : Result :=
  match s.advance.pop with
  | some (a, t) => .next (t.setPc a)
  | none => raise s .stackUnderflow (some (encode .ret)) none

/-- `1NNN` jump: `pc <- zext_16(NNN)` (R121). -/
def execJp (nnn : Addr12) (s : State) : Result :=
  .next (s.advance.setPc (addrOperand nnn))

/-- `2NNN` call: pushes the advanced `pc`, then jumps; with 16 frames in use StackOverflow (R122, R183). -/
def execCall (nnn : Addr12) (s : State) : Result :=
  match s.advance.push s.advance.pc with
  | some t => .next (t.setPc (addrOperand nnn))
  | none => raise s .stackOverflow (some (encode (.call nnn))) none

/-- `BNNN` jump with offset: `pc <- zext_16(NNN) + zext_16(V[0])`, a 16-bit sum that never wraps (R125). -/
def execJpV0 (nnn : Addr12) (s : State) : Result :=
  .next (s.advance.setPc (addrOperand nnn + s.wideV 0))

end Sys2Proof.Machine
end

