-- ==== Sys2Proof/Machine/Sprite.lean ====
section
/-! DEFINITION. The sprite XOR-draw unit with collision detection (R111, R112) and the cells of the display (R32). -/

namespace Sys2Proof.Machine

/-- A column of the display. -/
abbrev Column := Fin Config.displayW

/-- A row of the display. -/
abbrev Row := Fin Config.displayH

/-- `Disp[x][y]` (R12, R32). -/
def Display.cell (d : Display) (x : Column) (y : Row) : Bool := (d[y.val]'y.isLt)[x.val]'x.isLt

/-- `Disp[x][y] <- b` (R12, R32). -/
def Display.setCell (d : Display) (x : Column) (y : Row) (b : Bool) : Display :=
  d.set y.val ((d[y.val]'y.isLt).set x.val b x.isLt) y.isLt

/-- `Disp[x][y] <- NOT Disp[x][y]` (R112). -/
def Display.toggle (d : Display) (x : Column) (y : Row) : Display := d.setCell x y (!d.cell x y)

/-- The display with every cell off (R43, R110). -/
def Display.dark : Display := Vector.replicate Config.displayH (Vector.replicate Config.displayW false)

/-- A column coordinate, taken modulo the width (R112, R113). -/
def wrapX (n : Nat) : Column := ⟨n % Config.displayW, Nat.mod_lt _ (by decide)⟩

/-- A row coordinate, taken modulo the height (R112, R113). -/
def wrapY (n : Nat) : Row := ⟨n % Config.displayH, Nat.mod_lt _ (by decide)⟩

/-- The pixel of column `c`, 0 to 7, of a sprite row: bit 7 is column 0, the leftmost (R111). -/
def spritePixel (row : Byte) (c : Nat) : Bool := row.getLsbD (7 - c)

/-- The cells that one sprite row at row `y` touches: those of its columns whose pixel is 1, left to right (R112). -/
def rowCells (row : Byte) (x0 y : Nat) : List (Column × Row) :=
  ((List.range 8).filter (spritePixel row)).map fun c => (wrapX (x0 + c), wrapY y)

/-- The cells a sprite touches, row after row from row `y` on (R112). -/
def spriteCells (x0 : Nat) : Nat → List Byte → List (Column × Row)
  | _, [] => []
  | y, row :: rows => rowCells row x0 y ++ spriteCells x0 (y + 1) rows

/-- One cell of a draw: a cell that is on is a collision, and the cell is toggled (R112). -/
def drawCell (d : Display × Bool) (p : Column × Row) : Display × Bool :=
  (d.1.toggle p.1 p.2, d.2 || d.1.cell p.1 p.2)

/-- The draw of the sprite rows with its top left pixel at `(x0, y0)`: the new display, and whether any cell went from
on to off (R112). -/
def drawSprite (d : Display) (x0 y0 : Nat) (rows : List Byte) : Display × Bool :=
  (spriteCells x0 y0 rows).foldl drawCell (d, false)

end Sys2Proof.Machine
end

