-- ==== Sys2Proof/Machine/Display.lean ====
section
/-! DEFINITION. The display instructions 00E0 and DXYN (R110 to R113). -/

namespace Sys2Proof.Machine

/-- `00E0` clear-screen: every display cell off; `VF` unchanged (R110). -/
def execCls (s : State) : Result :=
  .next (s.advance.setDisp Display.dark)

/-- `DXYN` draw sprite (R112): the coordinates and `I` are read before any write, all row addresses are checked first
(R55), and `VF` is written last with the collision, also when `N = 0` (R113). -/
def execDrw (x y : Reg) (n : Nibble) (s : State) : Result :=
  let rows := s.mem.readBytes (s.memOperand 0) n.toNat
  let drawn := drawSprite s.disp (s.readV x).toNat (s.readV y).toNat rows
  checked readCheck n.toNat (.drw x y n) s ((s.advance.setDisp drawn.1).writeFlag drawn.2)

end Sys2Proof.Machine
end

