-- ==== Sys2Proof/Machine/Index.lean ====
section
/-! DEFINITION. Address register and memory instructions: ANNN, FX1E, FX29, FX33, FX55, FX65, and the binary-to-BCD
converter (R160 to R167). None changes `I` but the three that load it, and none writes `VF` as a flag. -/

namespace Sys2Proof.Machine

/-- `ANNN` load address register: `I <- zext_16(NNN)` (R160). -/
def execLdI (nnn : Addr12) (s : State) : Result :=
  .next (s.advance.setI (addrOperand nnn))

/-- `FX1E` add to address register: `I <- (I + V[X]) mod 65536`, no flag (R161). -/
def execAddI (x : Reg) (s : State) : Result :=
  .next (s.advance.setI (s.i + s.wideV x))

/-- `FX29` font address: `I <- V[X] * GLYPH_SIZE`, `V[X]` not masked (R162). -/
def execLdF (x : Reg) (s : State) : Result :=
  .next (s.advance.setI (s.wideV x * BitVec.ofNat 16 glyphSize))

/-- The BCD converter: hundreds, tens and ones, each digit a byte of its own (R164). -/
def bcdDigits (b : Byte) : List Byte :=
  [BitVec.ofNat 8 (b.toNat / 100), BitVec.ofNat 8 (b.toNat / 10 % 10), BitVec.ofNat 8 (b.toNat % 10)]

/-- `FX33` store BCD: the three digits of `V[X]` at `I`, `I+1`, `I+2`, all addresses checked first (R163). -/
def execLdB (x : Reg) (s : State) : Result :=
  checked writeCheck 3 (.ldB x) s
    (s.advance.setMem (s.mem.writeBytes (s.memOperand 0) (bcdDigits (s.readV x))))

/-- `FX55` register dump: `V[0]` to `V[X]` at `I` to `I+X`, all addresses checked first (R165). -/
def execLdMemVx (x : Reg) (s : State) : Result :=
  checked writeCheck (x.val + 1) (.ldMemVx x) s
    (s.advance.setMem (s.mem.writeBytes (s.memOperand 0) (s.readVs 0 (x.val + 1))))

/-- `FX65` register load: `V[0]` to `V[X]` from `I` to `I+X`, all addresses checked first (R166). -/
def execLdVxMem (x : Reg) (s : State) : Result :=
  checked readCheck (x.val + 1) (.ldVxMem x) s
    (s.advance.writeVs 0 (s.mem.readBytes (s.memOperand 0) (x.val + 1)))

end Sys2Proof.Machine
end

