-- ==== Sys2Proof/Machine/Skips.lean ====
section
/-! DEFINITION. Conditional skips: 3XNN, 4XNN, 5XY0, 9XY0, EX9E, EXA1 (R130 to R136). -/

namespace Sys2Proof.Machine

/-- `3XNN` skip if equal immediate (R130). -/
def execSeImm (x : Reg) (nn : Byte) (s : State) : Result :=
  .next (s.advance.skipIf (s.readV x == nn))

/-- `4XNN` skip if not equal immediate (R131). -/
def execSneImm (x : Reg) (nn : Byte) (s : State) : Result :=
  .next (s.advance.skipIf (s.readV x != nn))

/-- `5XY0` skip if registers equal (R132). -/
def execSeReg (x y : Reg) (s : State) : Result :=
  .next (s.advance.skipIf (s.readV x == s.readV y))

/-- `9XY0` skip if registers not equal (R133). -/
def execSneReg (x y : Reg) (s : State) : Result :=
  .next (s.advance.skipIf (s.readV x != s.readV y))

/-- `EX9E` skip if the key that `V[X]` names is pressed; KeyIndexOutOfRange when `V[X] > 15` (R134, R189). -/
def execSkp (x : Reg) (s : State) : Result :=
  match s.keyOperand x with
  | some k => .next (s.advance.skipIf (s.readKey k))
  | none => raise s .keyIndexOutOfRange (some (encode (.skp x))) none

/-- `EXA1` skip if the key that `V[X]` names is not pressed; KeyIndexOutOfRange when `V[X] > 15` (R135, R189). -/
def execSknp (x : Reg) (s : State) : Result :=
  match s.keyOperand x with
  | some k => .next (s.advance.skipIf (!s.readKey k))
  | none => raise s .keyIndexOutOfRange (some (encode (.sknp x))) none

end Sys2Proof.Machine
end

