-- ==== Sys2Proof/Machine/TimersKeys.lean ====
section
/-! DEFINITION. Timer and key-wait instructions: FX07, FX0A, FX15, FX18 (R170 to R175). -/

namespace Sys2Proof.Machine

/-- `FX07` read delay timer: `V[X] <- DT` (R170). -/
def execLdVxDt (x : Reg) (s : State) : Result :=
  .next (s.advance.writeV x s.dt)

/-- `FX0A` wait for key: `mode <- AwaitingKey(X)` with `pc` after the instruction; the keys are first looked at by the
next step (R171, R172). -/
def execLdVxK (x : Reg) (s : State) : Result :=
  .next (s.advance.setMode (.awaitingKey x))

/-- `FX15` set delay timer: `DT <- V[X]` (R173). -/
def execLdDtVx (x : Reg) (s : State) : Result :=
  .next (s.advance.setDt (s.readV x))

/-- `FX18` set sound timer: `ST <- V[X]`, no sound event (R174). -/
def execLdStVx (x : Reg) (s : State) : Result :=
  .next (s.advance.setSt (s.readV x))

end Sys2Proof.Machine
end

