-- ==== Sys2Proof/Machine/Cycle.lean ====
section
/-! DEFINITION. The execution cycle (R90 to R99): the fetch, the step in each operating state, and placing a word where
the next step fetches it. -/

namespace Sys2Proof.Machine

/-- Fetch (R92): the word at `pc`, high byte at the lower address (R56); none when `pc + 1` is no valid address,
computed without wrap-around. -/
def State.fetchWord (s : State) : Option Word :=
  if s.pc.toNat + 1 < Config.memSize then
    some (wordOfBytes (s.mem.read s.pc.toNat) (s.mem.read (s.pc.toNat + 1)))
  else none

/-- A step in Running (R91): fetch, decode, execute; a fetch outside memory is FetchOutOfBounds (R185), an UNKNOWN word
UnknownOpcode (R186). The fetch's advance of `pc` is the first thing every meaning does, so that a fault leaves the
state of the start of the step (R181). -/
def runningStep (s : State) : Result :=
  match s.fetchWord with
  | none => raise s .fetchOutOfBounds none none
  | some w =>
    match decodeWord w with
    | none => raise s .unknownOpcode (some w) none
    | some i => exec i s

/-- The least pressed key, if any is pressed (R97). -/
def State.leastKey (s : State) : Option KeyIndex :=
  ((List.range 16).find? fun k => s.key.toList.getD k false).bind fun k => if h : k < 16 then some ⟨k, h⟩ else none

/-- A step in AwaitingKey(x) (R97): the least pressed key's index goes to `V[x]` and the machine runs again, fetching
nothing; with no key pressed nothing changes. -/
def awaitKeyStep (x : Reg) (s : State) : Result :=
  match s.leastKey with
  | some k => .next ((s.writeV x (BitVec.ofNat 8 k.val)).setMode .running)
  | none => .next s

/-- A step in Halted: nothing changes (R98, R194). -/
def haltedStep (s : State) : Result := .next s

/-- The address the next step of a running machine fetches from: `pc`, or program-start where `pc` could fetch
nothing. -/
def State.fetchAddr (s : State) : Addr :=
  if s.pc.toNat + 1 < Config.memSize then s.pc else BitVec.ofNat 16 Config.programStart

/-- The machine running, with `pc` at an address that can be fetched and the word stored there, high byte first. -/
def State.placeWord (s : State) (w : Word) : State :=
  let a := s.fetchAddr
  ((s.setMode .running).setPc a).setMem ((s.mem.write a.toNat (highByte w)).write (a.toNat + 1) (lowByte w))

end Sys2Proof.Machine
end

