-- ==== Sys2Proof/Machine/Step.lean ====
section
/-! DEFINITION. The step operation (R90). -/

namespace Sys2Proof.Machine

/-- `step()` of R90: it dispatches on `mode`. It never answers a fault or a refusal: a fatal condition is a transition
into Halted, and what the driver is told is stepReport of Machine/Interface.lean. -/
def step (s : State) : Host.Outcome State Fault Refusal :=
  match s.mode with
  | .running => runningStep s
  | .awaitingKey x => awaitKeyStep x s
  | .halted _ => haltedStep s

/-- The state with an instruction stored where `step` fetches next: `w` holds its bits as spec/opcode_table.json
numbers them, bits above `nbits` are 0. The machine is made Running, as the fetch needs. -/
def State.withFetchWord (s : State) (nbits w : Nat) : State :=
  s.placeWord (BitVec.ofNat 16 (w % 2 ^ nbits))

end Sys2Proof.Machine
end

