-- ==== Sys2Proof/Machine/Interface.lean ====
section
/-! DEFINITION. The block's transaction-level interface (R36): every operation the driver invokes, what each answers,
and runs under a schedule of them (R175). -/

namespace Sys2Proof.Machine

/-! ### What a step reports (R90) -/

/-- The outcome a step returns to the host (R90). -/
inductive StepReport where
  /-- An instruction completed. -/
  | executed
  /-- In AwaitingKey with no key pressed, or FX0A has just entered AwaitingKey. -/
  | waiting
  /-- AwaitingKey was left. -/
  | resumed
  /-- A fatal condition, with its record; a halted machine reports its record again (R98). -/
  | fault (r : Fault)
  deriving DecidableEq, Repr

/-- The report of a step, from the operating states before and after it (R90, R91, R97, R98). -/
def reportOf : Mode → Mode → StepReport
  | .running, .running => .executed
  | .awaitingKey _, .running => .resumed
  | .halted _, .running => .executed
  | _, .awaitingKey _ => .waiting
  | _, .halted f => .fault (.fatal f)

/-- What the driver is told by a step from `s`; none where the step has no next state. -/
def stepReport (s : State) : Option StepReport :=
  match step s with
  | .next t => some (reportOf s.mode t.mode)
  | .fault r => some (.fault r)
  | .refused _ => none

/-! ### The other operations -/

/-- A timer's decrement toward zero (R37). -/
def tickDown (b : Byte) : Byte := if b = 0 then 0 else b - 1

/-- `tick_timers` (R37): both timers one down toward zero, in any mode. -/
def State.tickTimers (s : State) : State := (s.setDt (tickDown s.dt)).setSt (tickDown s.st)

/-- Whether `tick_timers` emits the sound event: it takes `ST` from 1 to 0 (R40). -/
def State.soundEvent (s : State) : Bool := s.st == 1

/-- `set_key` (R38): `Key[index] <- pressed`; none for an index above 15, for which it is not defined. -/
def State.setKey (s : State) (index : Nat) (pressed : Bool) : Option State :=
  if h : index < Config.numKeys then some { s with key := s.key.set index pressed h } else none

/-- `load_program` (R203): the bytes from program-start on; none when they do not fit. It does not go through the
checks of R54. -/
def State.loadProgram (s : State) (bytes : List Byte) : Option State :=
  if bytes.length ≤ Config.memSize - Config.programStart then
    some (s.setMem (s.mem.writeBytes Config.programStart bytes))
  else none

/-- `reset` (R201): the constructed machine, whatever the machine before. The input from outside is no part of the
machine: the draws after a reset are new ones (log entry 1). -/
def State.resetMachine (s : State) : State := { s with toAggregate := Aggregate.reset }

/-- `display_snapshot` (R39): the cells in row-major order. -/
def State.displaySnapshot (s : State) : List Bool := s.disp.toList.flatMap Vector.toList

/-! ### Transactions and schedules (R36) -/

/-- One operation of the interface on an existing machine (R36). `construct` makes the machine: it is State.reset. -/
inductive Transaction where
  | step
  | tickTimers
  | setKey (index : Nat) (pressed : Bool)
  | loadProgram (bytes : List Byte)
  | reset
  | displaySnapshot
  deriving DecidableEq, Repr

/-- What an operation answers to the host (R36, R39, R40, R90). -/
inductive Response where
  /-- The step's outcome. -/
  | stepped (r : StepReport)
  /-- The tick, with whether it emitted the sound event. -/
  | ticked (sound : Bool)
  /-- The operation answers nothing. -/
  | done
  /-- The grid of the display, row-major. -/
  | grid (cells : List Bool)
  deriving DecidableEq, Repr

/-- One transaction: atomic, and seeing the state the one before it left (R36, R62). A call for which the machine has no
transition is refused by name and changes nothing (R38, R203). -/
def transact (op : Transaction) (s : State) : Host.Outcome (State × Response) Fault Refusal :=
  match op with
  | .step =>
    match step s with
    | .next t => .next (t, .stepped (reportOf s.mode t.mode))
    | .fault r => .fault r
    | .refused r => .refused r
  | .tickTimers => .next (s.tickTimers, .ticked s.soundEvent)
  | .setKey index pressed =>
    match s.setKey index pressed with
    | some t => .next (t, .done)
    | none => .refused (.keyIndexUndefined index)
  | .loadProgram bytes =>
    match s.loadProgram bytes with
    | some t => .next (t, .done)
    | none => .refused (.programTooLong bytes.length)
  | .reset => .next (s.resetMachine, .done)
  | .displaySnapshot => .next (s, .grid s.displaySnapshot)

/-- The state after a transaction; a refused call leaves the state as it is. -/
def afterTransaction (s : State) (op : Transaction) : State :=
  match transact op s with
  | .next (t, _) => t
  | .fault _ => s
  | .refused _ => s

/-- The state after a schedule of transactions, in the order the host invokes them: any number of ticks may stand
between two steps (R62, R175). -/
def runSchedule (s : State) (ops : List Transaction) : State := ops.foldl afterTransaction s

end Sys2Proof.Machine
end

