-- ==== Sys2Proof/Safety.lean ====
section
/-! DEFINITION. The terms claims use: the components of the state and frames over them, what each instruction may
write, the fatal conditions in closed form, the invariant, and what cannot be observed. -/

namespace Sys2Proof.Machine

/-! ### Components and frames -/

/-- The components of the state aggregate of R20, each register, slot, byte, cell and key by itself, and the model's
own count of draws, which is no part of the aggregate. -/
inductive Component where
  | v (r : Reg)
  | i
  | pc
  | slot (k : Fin 16)
  | sp
  | byte (a : Nat)
  | cell (x : Column) (y : Row)
  | key (k : KeyIndex)
  | dt
  | st
  | mode
  | draws
  deriving DecidableEq, Repr

/-- `stack[k]` (R27). -/
def State.slot (s : State) (k : Fin 16) : Addr := s.stack[k.val]'k.isLt

/-- The component has the same value in both states; memory is looked at byte by byte. -/
def Component.same (s t : State) : Component → Prop
  | .v r => t.readV r = s.readV r
  | .i => t.i = s.i
  | .pc => t.pc = s.pc
  | .slot k => t.slot k = s.slot k
  | .sp => t.sp = s.sp
  | .byte a => t.mem.read a = s.mem.read a
  | .cell x y => t.disp.cell x y = s.disp.cell x y
  | .key k => t.readKey k = s.readKey k
  | .dt => t.dt = s.dt
  | .st => t.st = s.st
  | .mode => t.mode = s.mode
  | .draws => t.draws = s.draws

/-- The frame of a change from `s` to `t`: every component outside `touched` has the value it had. -/
def UnchangedExcept (touched : Component → Prop) (s t : State) : Prop :=
  ∀ c, ¬ touched c → c.same s t

/-- The `n` bytes of memory from the address `I` on, the range the memory instructions reach (R60). -/
def bytesFromI (s : State) (n : Nat) (c : Component) : Prop :=
  ∃ a, s.memOperand 0 ≤ a ∧ a < s.memOperand n ∧ c = .byte a

/-- The cells of the 8 by `n` box at the coordinates in `V[x]`, `V[y]`, wrapped (R112, R113). -/
def cellsOfBox (s : State) (x y : Reg) (n : Nat) (c : Component) : Prop :=
  ∃ col row, col < 8 ∧ row < n ∧ c = .cell (wrapX ((s.readV x).toNat + col)) (wrapY ((s.readV y).toNat + row))

/-- What an instruction that completes from `s` may write besides `pc`: the destinations the spec gives it (R21, R24,
R25, R27, R29, R30, R32, R60) and, for CXNN, the model's count of draws. -/
def writesOf (s : State) : Instr → Component → Prop
  | .cls, c => ∃ x y, c = .cell x y
  | .ret, c => c = .sp
  | .jp _, _ | .jpV0 _, _ => False
  | .call _, c => c = .sp ∨ ∃ k, k.val = s.sp.val ∧ c = .slot k
  | .seImm _ _, _ | .sneImm _ _, _ | .seReg _ _, _ | .sneReg _ _, _ | .skp _, _ | .sknp _, _ => False
  | .ldImm x _, c | .addImm x _, c | .ldReg x _, c | .orReg x _, c | .andReg x _, c | .xorReg x _, c
  | .ldVxDt x, c => c = .v x
  | .addReg x _, c | .sub x _, c | .shr x _, c | .subn x _, c | .shl x _, c => c = .v x ∨ c = .v Config.vf
  | .rnd x _, c => c = .v x ∨ c = .draws
  | .drw x y n, c => c = .v Config.vf ∨ cellsOfBox s x y n.toNat c
  | .ldI _, c | .addI _, c | .ldF _, c => c = .i
  | .ldVxK _, c => c = .mode
  | .ldDtVx _, c => c = .dt
  | .ldStVx _, c => c = .st
  | .ldB _, c => bytesFromI s 3 c
  | .ldMemVx x, c => bytesFromI s (x.val + 1) c
  | .ldVxMem x, c => ∃ r, r ≤ x ∧ c = .v r

/-- Whether the sprite of `n` rows at `I`, drawn at the coordinates in `V[x]`, `V[y]`, has a 1 for the cell `(cx, cy)`:
the cell's column and row counted from the sprite's top left pixel, modulo the display, must lie in the sprite, and the
bit there, bit 7 leftmost, must be 1 (R111, R112, R113). -/
def spriteCovers (s : State) (x y : Reg) (n : Nat) (cx : Column) (cy : Row) : Bool :=
  let c := (cx.val + 256 - (s.readV x).toNat) % Config.displayW
  let r := (cy.val + 256 - (s.readV y).toNat) % Config.displayH
  decide (c < 8) && decide (r < n) && (s.mem.read (s.memOperand r)).getLsbD (7 - c)

/-! ### Fatal conditions in closed form (R182, R190) -/

/-- The fatal condition of a read of `n` bytes from the natural address `a` on: the first address outside memory. -/
def readFatal (a n : Nat) : Option (FaultKind × Option Nat) :=
  if 0 < n ∧ Config.memSize < a + n then some (.memoryOutOfBounds, some (max a Config.memSize)) else none

/-- The fatal condition of a write of `n` bytes from the natural address `a` on: the first address in the reserved
region or outside memory. -/
def writeFatal (a n : Nat) : Option (FaultKind × Option Nat) :=
  if 0 < n ∧ a < Config.programStart then some (.reservedWrite, some a) else readFatal a n

/-- The instruction's own fatal condition in `s`, if it is met, with the failing data address where there is one. -/
def fatalOf (s : State) : Instr → Option (FaultKind × Option Nat)
  | .call _ => if s.sp.val = 16 then some (.stackOverflow, none) else none
  | .ret => if s.sp.val = 0 then some (.stackUnderflow, none) else none
  | .skp x | .sknp x => if 15 < (s.readV x).toNat then some (.keyIndexOutOfRange, none) else none
  | .drw _ _ n => readFatal s.i.toNat n.toNat
  | .ldB _ => writeFatal s.i.toNat 3
  | .ldMemVx x => writeFatal s.i.toNat (x.val + 1)
  | .ldVxMem x => readFatal s.i.toNat (x.val + 1)
  | .cls | .jp _ | .seImm _ _ | .sneImm _ _ | .seReg _ _ | .ldImm _ _ | .addImm _ _ | .ldReg _ _ | .orReg _ _
  | .andReg _ _ | .xorReg _ _ | .addReg _ _ | .sub _ _ | .shr _ _ | .subn _ _ | .shl _ _ | .sneReg _ _ | .ldI _
  | .jpV0 _ | .rnd _ _ | .ldVxDt _ | .ldVxK _ | .ldDtVx _ | .ldStVx _ | .addI _ | .ldF _ => none

/-- The record of the fatal condition a step of a running machine raises, if it raises one: the fetch first, then the
decode, then the instruction's own (R190). -/
def State.fatal (s : State) : Option FaultRecord :=
  if Config.memSize ≤ s.pc.toNat + 1 then some ⟨.fetchOutOfBounds, s.pc, none, none⟩
  else
    let w := wordOfBytes (s.mem.read s.pc.toNat) (s.mem.read (s.pc.toNat + 1))
    match decodeWord w with
    | none => some ⟨.unknownOpcode, s.pc, some w, none⟩
    | some i => (fatalOf s i).map fun k => ⟨k.1, s.pc, some w, k.2⟩

/-! ### The invariant and safe states -/

/-- Every listed byte lies in the writable region, so the reserved region reads as after reset (R51, R54). -/
def Memory.confined (m : Memory) : Bool :=
  m.all fun c => decide (Config.programStart ≤ c.1) && decide (c.1 < Config.memSize)

/-- A fault record of the form R180 gives it, for an instruction at the address `a`: the word is absent only for a fetch
outside memory, and a data address is present exactly for the two data faults. -/
def FaultRecord.fits (f : FaultRecord) (a : Addr) : Prop :=
  f.addr = a ∧ (f.word = none ↔ f.kind = .fetchOutOfBounds) ∧
    (f.dataAddr = none ↔ f.kind ≠ .memoryOutOfBounds ∧ f.kind ≠ .reservedWrite)

/-- The machine's invariant: memory is in canonical form and confined to the writable region, and a halted machine holds
a record of the right form whose address is its `pc` (R54, R180, R181). -/
def Inv (s : State) : Prop :=
  s.mem.wf = true ∧ s.mem.confined = true ∧ ∀ f, s.mode = .halted f → f.fits s.pc

/-- A safe state: no fatal condition has been raised. -/
def State.safe (s : State) : Prop := ∀ f, s.mode ≠ .halted f

/-- The end of a run by the spec's convention (R101): running, with the word at `pc` a jump to `pc`. -/
def State.atEnd (s : State) : Prop :=
  s.mode = .running ∧ ∃ nnn, s.fetchWord = some (wordNNN 0x1 nnn) ∧ addrOperand nnn = s.pc

/-! ### What cannot be observed -/

/-- The states differ at most in inactive stack slots, those at or above `sp` (R28). -/
def SameButInactiveSlots (s t : State) : Prop :=
  t = { s with stack := t.stack } ∧ ∀ k : Fin 16, k.val < s.sp.val → t.slot k = s.slot k

/-- The states differ at most in the sound timer (R29). -/
def SameButSt (s t : State) : Prop := t = { s with st := t.st }

/-! ### Straight-line execution -/

/-- Executes instructions one after the other, each by its meaning, stopping where one has no next state. -/
def execAll : List Instr → State → Host.Outcome State Fault Refusal
  | [], s => .next s
  | i :: is, s =>
    match exec i s with
    | .next t => execAll is t
    | .fault r => .fault r
    | .refused r => .refused r

end Sys2Proof.Machine
end

