-- ==== Sys2Proof/Certificates/Slice0/Obligations.lean ====
section
/-! DEFINITION. The statements for the provers. `exec i s` is one instruction executed from the state at the start of its
step, whose `pc` is the instruction's address. -/

open Sys2Proof Sys2Proof.Machine

/-! ### Encoding -/

/-- Decode and encode agree: the two bytes of any instruction, whatever follows them, decode to it (R75, R76, R79; the
patterns of R75 are the spec's, from general knowledge). -/
def Obligations.EncodedBytesDecodeToTheInstruction : Prop :=
  ∀ (i : Instr) (rest : List Byte), decodeBytes (encodeBytes i ++ rest) = .ok (i, rest)

/-- The other direction: a word that decodes to an instruction is that instruction's word, so a fault record's word is
the raw word that was fetched (R75, R76, R180; the patterns of R75 are the spec's, from general knowledge). -/
def Obligations.DecodedInstructionEncodesToItsWord : Prop :=
  ∀ (w : Word) (i : Instr), decodeWord w = some i → encode i = w

/-- The decode function selects the row of the opcode table that the word matches, and UNKNOWN exactly when the word
matches none (R75, R76; the patterns are the spec's, from general knowledge, and their strictness its decision D8). -/
def Obligations.DecodeSelectsTheMatchingTableRow : Prop :=
  ∀ w : Word,
    (∀ i, decodeWord w = some i → ∃ r, opcodeTable[i.rowIndex]? = some r ∧ r.isMatch w = true) ∧
    (decodeWord w = none ↔ ∀ r ∈ opcodeTable, r.isMatch w = false)

/-- No word matches two rows of the opcode table (R73, an inference the spec marks as its own). -/
def Obligations.NoWordMatchesTwoTableRows : Prop :=
  ∀ (w : Word) (j k : Nat) (p q : OpcodeRow), opcodeTable[j]? = some p → opcodeTable[k]? = some q →
    p.isMatch w = true → q.isMatch w = true → j = k

/-- The illegal words are exactly those R77 lists (the strictness of decode is the spec's decision D8). -/
def Obligations.IllegalWordsAreExactlyThoseListed : Prop :=
  ∀ w : Word, decodeWord w = none ↔
    (w.toNat / 4096 = 0x0 ∧ w ≠ 0x00E0 ∧ w ≠ 0x00EE) ∨
    ((w.toNat / 4096 = 0x5 ∨ w.toNat / 4096 = 0x9) ∧ w.toNat % 16 ≠ 0) ∨
    (w.toNat / 4096 = 0x8 ∧ w.toNat % 16 ∈ [0x8, 0x9, 0xA, 0xB, 0xC, 0xD, 0xF]) ∨
    (w.toNat / 4096 = 0xE ∧ w.toNat % 256 ∉ [0x9E, 0xA1]) ∨
    (w.toNat / 4096 = 0xF ∧ w.toNat % 256 ∉ [0x07, 0x0A, 0x15, 0x18, 0x1E, 0x29, 0x33, 0x55, 0x65])

/-- Words written out from the patterns of R75, one or more for each family, decode to the instruction they stand for
(the patterns are the spec's, from general knowledge). -/
def Obligations.WrittenOutWordsDecodeRight : Prop :=
  decodeWord 0x00E0 = some .cls ∧ decodeWord 0xD015 = some (.drw 0 1 5) ∧
  decodeWord 0x00EE = some .ret ∧ decodeWord 0x2210 = some (.call 0x210) ∧
  decodeWord 0x3310 = some (.seImm 3 0x10) ∧ decodeWord 0xE59E = some (.skp 5) ∧
  decodeWord 0x8124 = some (.addReg 1 2) ∧ decodeWord 0x6A42 = some (.ldImm 0xA 0x42) ∧
  decodeWord 0xA2F0 = some (.ldI 0x2F0) ∧ decodeWord 0xF265 = some (.ldVxMem 2) ∧
  decodeWord 0xF30A = some (.ldVxK 3) ∧ decodeWord 0x5121 = none

/-! ### The step -/

/-- A step of a running machine executes the instruction that the word at `pc` decodes to, the byte at `pc` being the
high byte of the word; the step adds nothing to exec, whose meanings move `pc` past the word themselves (R91, R92). -/
def Obligations.StepExecutesTheDecodedInstruction : Prop :=
  ∀ (s : State) (w : Word) (i : Instr), s.mode = .running → s.pc.toNat + 1 < 4096 →
    w.toNat = 256 * (s.mem.read s.pc.toNat).toNat + (s.mem.read (s.pc.toNat + 1)).toNat →
    decodeWord w = some i → step s = exec i s

/-- A fetch with `pc + 1` outside memory halts the machine with FetchOutOfBounds, a record without a word and nothing
else changed (R181, R185; that all other state is kept is the spec's decision D12). -/
def Obligations.FetchOutsideMemoryHalts : Prop :=
  ∀ s : State, s.mode = .running → 4096 ≤ s.pc.toNat + 1 →
    step s = .next { s with mode := .halted ⟨.fetchOutOfBounds, s.pc, none, none⟩ }

/-- A fetched word that decodes to UNKNOWN halts the machine with UnknownOpcode, its address and the word, and nothing
else changed (R181, R186; that all other state is kept is the spec's decision D12). -/
def Obligations.UnknownWordHalts : Prop :=
  ∀ (s : State) (w : Word), s.mode = .running → s.pc.toNat + 1 < 4096 →
    w.toNat = 256 * (s.mem.read s.pc.toNat).toNat + (s.mem.read (s.pc.toNat + 1)).toNat →
    decodeWord w = none →
    step s = .next { s with mode := .halted ⟨.unknownOpcode, s.pc, some w, none⟩ }

/-- A step in AwaitingKey(x) with a key pressed stores the least pressed key's index in `V[x]`, runs again and changes
nothing else; with no key pressed it changes nothing (R97; the level check and the least key are the spec's decisions
D13 and D14). -/
def Obligations.AwaitingKeyStepStoresTheLeastPressedKey : Prop :=
  ∀ (s : State) (x : Reg), s.mode = .awaitingKey x →
    (∀ k : KeyIndex, s.readKey k = true → (∀ j, j < k → s.readKey j = false) →
      ∃ t, step s = .next t ∧ (t.readV x).toNat = k.val ∧ t.mode = .running ∧
        UnchangedExcept (fun c => c = .v x ∨ c = .mode) s t) ∧
    ((∀ k : KeyIndex, s.readKey k = false) → step s = .next s)

/-- A step in Halted(f) changes nothing and reports Fault(f) again (R98, R194; the spec's decision D12). -/
def Obligations.HaltedStepReportsItsFaultAgain : Prop :=
  ∀ (s : State) (f : FaultRecord), s.mode = .halted f →
    step s = .next s ∧ stepReport s = some (.fault (.fatal f))

/-- Every state has a next state: no step stops the machine or is refused (R100; that a
halted machine's step has a next state, itself, is the spec's decision D12). -/
def Obligations.EveryStepHasANextState : Prop :=
  ∀ s : State, ∃ t, step s = .next t

/-- What a step of a running machine reports: the fault if its fatal condition is met; otherwise Waiting for FX0A and
Executed for every other instruction (R90, R91, R182; the outcomes' names are the spec's decision D12). -/
def Obligations.RunningStepReports : Prop :=
  ∀ s : State, s.mode = .running →
    (∀ f, s.fatal = some f → stepReport s = some (.fault (.fatal f))) ∧
    (s.fatal = none → ∃ w i, s.fetchWord = some w ∧ decodeWord w = some i ∧
      (∀ x, i = .ldVxK x → stepReport s = some .waiting) ∧
      ((∀ x, i ≠ .ldVxK x) → stepReport s = some .executed))

/-- A step of a running machine raises a fault exactly when the condition of R182 is met, with that record: the fetch
first, then the decode, then the instruction's own check at its first failing address (R182, R190; conditions 5 to 7
are the spec's decisions D9 to D11). -/
def Obligations.FaultsAreRaisedExactlyOnTheirConditions : Prop :=
  ∀ (s : State) (f : FaultRecord), s.mode = .running →
    ((∃ t, step s = .next t ∧ t.mode = .halted f) ↔ s.fatal = some f)

/-- Faults are precise: a step that halts leaves every component but `mode` as it was, and its record has the faulting
instruction's address, the fetched word (none only for a fetch outside memory) and a data address exactly for the two
data faults (R180, R181; full rollback is the spec's decision D12). -/
def Obligations.FaultsArePrecise : Prop :=
  ∀ (s t : State) (f : FaultRecord), s.mode = .running → step s = .next t → t.mode = .halted f →
    t = { s with mode := .halted f } ∧ f.fits s.pc ∧ f.word = s.fetchWord

/-- Only FX0A enters AwaitingKey, only a running machine halts, and no step leaves Halted (R30, R98, R99;
Halted and the wait's mechanics are the spec's decisions D12 and D13). -/
def Obligations.ModeChangesOnlyAsSpecified : Prop :=
  ∀ s t : State, step s = .next t →
    (∀ x, t.mode = .awaitingKey x → s.mode = .awaitingKey x ∨
      (s.mode = .running ∧ ∃ w, s.fetchWord = some w ∧ decodeWord w = some (.ldVxK x))) ∧
    (∀ f, t.mode = .halted f → s.mode = .halted f ∨ s.mode = .running) ∧
    (t.mode = .running → ∀ f, s.mode ≠ .halted f)

/-- A running machine at a jump to its own address changes nothing in a step: the end of a run by the spec's convention
(R101, R121; the convention is the spec's decision D35). -/
def Obligations.SelfJumpIsAFixedPoint : Prop :=
  ∀ s : State, s.atEnd → step s = .next s

/-- The word the host places is the one the next step runs (the model's own interface). -/
def Obligations.PlacedWordIsRunByTheNextStep : Prop :=
  ∀ (s : State) (w : Nat) (i : Instr), s.mem.wf = true → decodeTableWord 16 w = some i →
    step (s.withFetchWord 16 w) = exec i (s.withFetchWord 16 w)

/-! ### Invariants -/

/-- The invariant holds after reset (R43). Its clause that memory is in canonical form is the model's own, log entry 6. -/
def Obligations.InvariantHoldsAfterReset : Prop := Inv State.reset

/-- Every step keeps the invariant: memory stays in canonical form and confined to the writable region, and a halted
machine's record names the address in `pc` (R54, R180, R181; the protection of the reserved region and the state after a
fault are the spec's decisions D11 and D12). The canonical form is the model's own, log entry 6. -/
def Obligations.EveryStepKeepsTheInvariant : Prop :=
  ∀ s t : State, Inv s → step s = .next t → Inv t

/-- Under every schedule of host operations, with any number of ticks between steps, the invariant holds and the
reserved region, the font table with it, reads as after reset (R54, R57, R62, R175; the font's place and the region's
protection are the spec's decisions D4 and D11, the loads D24, the ticks between steps D29). The invariant's canonical
form of memory is the model's own, log entry 6. -/
def Obligations.FontSurvivesEverySchedule : Prop :=
  ∀ (s : State) (ops : List Transaction), Inv s →
    Inv (runSchedule s ops) ∧
    (∀ a, a < 0x200 → (runSchedule s ops).mem.read a = fontTable.getD a 0)

/-! ### The memory array -/

/-- Two memories in canonical form that read the same everywhere are the same data: equal memories are equal states (the
canonical form is the model's own, log entry 6). -/
def Obligations.CanonicalMemoriesAreEqualWhenTheyReadTheSame : Prop :=
  ∀ m n : Memory, m.wf = true → n.wf = true → (∀ a, m.read a = n.read a) → m = n

/-! ### Display instructions -/

/-- 00E0 turns every cell off and changes nothing else but `pc` (R110). -/
def Obligations.ClearScreenTurnsEveryCellOff : Prop :=
  ∀ s : State, ∃ t, exec .cls s = .next t ∧ (∀ x y, t.disp.cell x y = false) ∧ t.pc = s.pc + 2 ∧
    UnchangedExcept (fun c => c = .pc ∨ ∃ x y, c = .cell x y) s t

/-- DXYN with its rows inside memory toggles exactly the cells its sprite has a 1 for, wrapping at the display's edges,
sets `VF` to 1 exactly when some cell went from on to off and to 0 otherwise (also with no rows), and changes nothing
else but `pc`; with `X = 15` or `Y = 15` the coordinate is the old `VF` (R112, R113; bit order and sizes are the spec's
decisions D5 and D30). -/
def Obligations.DrawTogglesExactlyItsSpritesCells : Prop :=
  ∀ (x y : Reg) (n : Nibble) (s : State), (n = 0 ∨ s.i.toNat + n.toNat ≤ 4096) →
    ∃ t, exec (.drw x y n) s = .next t ∧ t.pc = s.pc + 2 ∧
      (∀ cx cy, t.disp.cell cx cy = (s.disp.cell cx cy ^^ spriteCovers s x y n.toNat cx cy)) ∧
      ((∃ cx cy, s.disp.cell cx cy = true ∧ t.disp.cell cx cy = false) → t.readV 15 = 1) ∧
      ((∀ cx cy, s.disp.cell cx cy = true → t.disp.cell cx cy = true) → t.readV 15 = 0) ∧
      UnchangedExcept (fun c => c = .pc ∨ c = .v 15 ∨ cellsOfBox s x y n.toNat c) s t

/-- Drawing a sprite twice at the same place, its coordinates in registers other than `VF`, restores the display; where
its cells were off, the first draw reports no collision, and the second one does unless the sprite is empty (R113, an
inference the spec marks as its own). With `X = 15` or `Y = 15` the first draw changes the coordinate of the second, so
the two draws need not be at the same place. -/
def Obligations.DrawingTwiceRestoresTheDisplay : Prop :=
  ∀ (x y : Reg) (n : Nibble) (s t u : State), x ≠ 15 → y ≠ 15 → (n = 0 ∨ s.i.toNat + n.toNat ≤ 4096) →
    exec (.drw x y n) s = .next t → exec (.drw x y n) t = .next u →
    u.disp = s.disp ∧
    ((∀ cx cy, spriteCovers s x y n.toNat cx cy = true → s.disp.cell cx cy = false) →
      t.readV 15 = 0 ∧ ((∃ cx cy, spriteCovers s x y n.toNat cx cy = true) → u.readV 15 = 1))

/-! ### Control transfer -/

/-- 1NNN sets `pc` to `NNN` and changes nothing else (R121). -/
def Obligations.JumpSetsPcToItsTarget : Prop :=
  ∀ (nnn : Addr12) (s : State), ∃ t, exec (.jp nnn) s = .next t ∧ t.pc.toNat = nnn.toNat ∧
    UnchangedExcept (fun c => c = .pc) s t

/-- BNNN sets `pc` to `NNN + V[0]`, not masked to 12 bits, and changes nothing else (R125; the unmasked sum is the
spec's decision D18). -/
def Obligations.JumpWithOffsetAddsV0 : Prop :=
  ∀ (nnn : Addr12) (s : State), ∃ t, exec (.jpV0 nnn) s = .next t ∧
    t.pc.toNat = nnn.toNat + (s.readV 0).toNat ∧ UnchangedExcept (fun c => c = .pc) s t

/-- 2NNN with fewer than 16 frames pushes the address after it, counts one frame more and jumps to `NNN`; with 16 frames
it raises StackOverflow with no other state change (R122; Halted and its record are the spec's decisions D12 and
D32). -/
def Obligations.CallPushesTheReturnAddressAndJumps : Prop :=
  ∀ (nnn : Addr12) (s : State),
    (∀ k : Fin 16, s.sp.val = k.val →
      ∃ t, exec (.call nnn) s = .next t ∧ t.slot k = s.pc + 2 ∧ t.sp.val = s.sp.val + 1 ∧ t.pc.toNat = nnn.toNat ∧
        UnchangedExcept (fun c => c = .pc ∨ c = .sp ∨ c = .slot k) s t) ∧
    (s.sp.val = 16 → exec (.call nnn) s =
      .next { s with mode := .halted ⟨.stackOverflow, s.pc, some (BitVec.ofNat 16 (0x2000 + nnn.toNat)), none⟩ })

/-- 00EE with a frame in use sets `pc` to the newest stacked address and counts one frame less, the slot keeping its
value; with no frame it raises StackUnderflow with no other state change (R120; Halted and its record are the spec's
decisions D12 and D32). -/
def Obligations.ReturnPopsIntoPc : Prop :=
  ∀ s : State,
    (∀ k : Fin 16, s.sp.val = k.val + 1 →
      ∃ t, exec .ret s = .next t ∧ t.pc = s.slot k ∧ t.sp.val = k.val ∧
        UnchangedExcept (fun c => c = .pc ∨ c = .sp) s t) ∧
    (s.sp.val = 0 → exec .ret s =
      .next { s with mode := .halted ⟨.stackUnderflow, s.pc, some 0x00EE, none⟩ })

/-- Calls within the stack's capacity followed by as many returns bring `pc` to the address after the first call and
`sp` back, with every slot below `sp`, every register and memory unchanged (R123, an inference the spec marks as its
own). -/
def Obligations.CallsThenReturnsRestoreInLifoOrder : Prop :=
  ∀ (targets : List Addr12) (s : State), targets ≠ [] → s.sp.val + targets.length ≤ 16 →
    ∃ t, execAll (targets.map Instr.call ++ List.replicate targets.length .ret) s = .next t ∧
      t.pc = s.pc + 2 ∧
      UnchangedExcept (fun c => c = .pc ∨ ∃ k : Fin 16, s.sp.val ≤ k.val ∧ c = .slot k) s t

/-! ### Skips -/

/-- 3XNN skips exactly when `V[X] = NN`, 4XNN exactly when not; nothing else changes (R130, R131). -/
def Obligations.SkipOnImmediateComparison : Prop :=
  ∀ (x : Reg) (nn : Byte) (s : State),
    (∃ t, exec (.seImm x nn) s = .next t ∧ t.pc = (if s.readV x = nn then s.pc + 4 else s.pc + 2) ∧
      UnchangedExcept (fun c => c = .pc) s t) ∧
    (∃ t, exec (.sneImm x nn) s = .next t ∧ t.pc = (if s.readV x = nn then s.pc + 2 else s.pc + 4) ∧
      UnchangedExcept (fun c => c = .pc) s t)

/-- 5XY0 skips exactly when `V[X] = V[Y]`, 9XY0 exactly when not; nothing else changes (R132, R133). -/
def Obligations.SkipOnRegisterComparison : Prop :=
  ∀ (x y : Reg) (s : State),
    (∃ t, exec (.seReg x y) s = .next t ∧ t.pc = (if s.readV x = s.readV y then s.pc + 4 else s.pc + 2) ∧
      UnchangedExcept (fun c => c = .pc) s t) ∧
    (∃ t, exec (.sneReg x y) s = .next t ∧ t.pc = (if s.readV x = s.readV y then s.pc + 2 else s.pc + 4) ∧
      UnchangedExcept (fun c => c = .pc) s t)

/-- With `V[X]` naming a key, EX9E skips exactly when it is pressed and EXA1 exactly when not, and nothing else changes;
with `V[X]` above 15 both raise KeyIndexOutOfRange (R134, R135; that fault is the spec's decision D9). -/
def Obligations.SkipOnKeyState : Prop :=
  ∀ (x : Reg) (s : State),
    (∀ k : KeyIndex, (s.readV x).toNat = k.val →
      (∃ t, exec (.skp x) s = .next t ∧ t.pc = (if s.readKey k then s.pc + 4 else s.pc + 2) ∧
        UnchangedExcept (fun c => c = .pc) s t) ∧
      (∃ t, exec (.sknp x) s = .next t ∧ t.pc = (if s.readKey k then s.pc + 2 else s.pc + 4) ∧
        UnchangedExcept (fun c => c = .pc) s t)) ∧
    (15 < (s.readV x).toNat →
      exec (.skp x) s = .next
        { s with mode := .halted ⟨.keyIndexOutOfRange, s.pc, some (BitVec.ofNat 16 (0xE09E + 256 * x.val)), none⟩ } ∧
      exec (.sknp x) s = .next
        { s with mode := .halted ⟨.keyIndexOutOfRange, s.pc, some (BitVec.ofNat 16 (0xE0A1 + 256 * x.val)), none⟩ })

/-! ### Register loads and arithmetic -/

/-- 6XNN sets `V[X]` to `NN`, 8XY0 sets it to `V[Y]`; nothing else changes but `pc` (R141, R143). -/
def Obligations.LoadImmediateAndCopyRegister : Prop :=
  ∀ (x y : Reg) (nn : Byte) (s : State),
    (∃ t, exec (.ldImm x nn) s = .next t ∧ t.readV x = nn ∧ t.pc = s.pc + 2 ∧
      UnchangedExcept (fun c => c = .pc ∨ c = .v x) s t) ∧
    (∃ t, exec (.ldReg x y) s = .next t ∧ t.readV x = s.readV y ∧ t.pc = s.pc + 2 ∧
      UnchangedExcept (fun c => c = .pc ∨ c = .v x) s t)

/-- 7XNN adds `NN` to `V[X]` modulo 256 and changes nothing else but `pc`, so the flag register is unaffected unless it
is the destination (R142). -/
def Obligations.AddImmediateWrapsWithoutFlag : Prop :=
  ∀ (x : Reg) (nn : Byte) (s : State), ∃ t, exec (.addImm x nn) s = .next t ∧
    (t.readV x).toNat = ((s.readV x).toNat + nn.toNat) % 256 ∧ t.pc = s.pc + 2 ∧
    UnchangedExcept (fun c => c = .pc ∨ c = .v x) s t

/-- 8XY1, 8XY2 and 8XY3 set `V[X]` bit by bit to the OR, AND and XOR of the two registers and change nothing else but
`pc`; `VF` is not reset (R144, R145, R146). -/
def Obligations.BitwiseOperationsActBitByBit : Prop :=
  ∀ (x y : Reg) (s : State),
    (∃ t, exec (.orReg x y) s = .next t ∧
      (∀ k, (t.readV x).getLsbD k = ((s.readV x).getLsbD k || (s.readV y).getLsbD k)) ∧ t.pc = s.pc + 2 ∧
      UnchangedExcept (fun c => c = .pc ∨ c = .v x) s t) ∧
    (∃ t, exec (.andReg x y) s = .next t ∧
      (∀ k, (t.readV x).getLsbD k = ((s.readV x).getLsbD k && (s.readV y).getLsbD k)) ∧ t.pc = s.pc + 2 ∧
      UnchangedExcept (fun c => c = .pc ∨ c = .v x) s t) ∧
    (∃ t, exec (.xorReg x y) s = .next t ∧
      (∀ k, (t.readV x).getLsbD k = ((s.readV x).getLsbD k ^^ (s.readV y).getLsbD k)) ∧ t.pc = s.pc + 2 ∧
      UnchangedExcept (fun c => c = .pc ∨ c = .v x) s t)

/-- 8XY4: `V[X]` is the sum modulo 256 and `VF` is 1 exactly when the sum exceeds 255, else 0; with `X = 15` the flag
remains. Nothing else changes but `pc` (R147; the flag as the last write is the spec's decision D7). -/
def Obligations.AddRegistersSetsCarry : Prop :=
  ∀ (x y : Reg) (s : State), ∃ t, exec (.addReg x y) s = .next t ∧
    (x ≠ 15 → (t.readV x).toNat = ((s.readV x).toNat + (s.readV y).toNat) % 256) ∧
    (t.readV 15).toNat = (if 255 < (s.readV x).toNat + (s.readV y).toNat then 1 else 0) ∧ t.pc = s.pc + 2 ∧
    UnchangedExcept (fun c => c = .pc ∨ c = .v x ∨ c = .v 15) s t

/-- 8XY5 and 8XY7: `V[X]` is `V[X] - V[Y]`, respectively `V[Y] - V[X]`, modulo 256, and `VF` is 1 exactly when there is
no borrow, else 0; with `X = 15` the flag remains. Nothing else changes but `pc` (R148, R151; the flag as the last write
is the spec's decision D7). -/
def Obligations.SubtractionsSetNoBorrow : Prop :=
  ∀ (x y : Reg) (s : State),
    (∃ t, exec (.sub x y) s = .next t ∧
      (x ≠ 15 → (t.readV x).toNat = ((s.readV x).toNat + 256 - (s.readV y).toNat) % 256) ∧
      (t.readV 15).toNat = (if (s.readV y).toNat ≤ (s.readV x).toNat then 1 else 0) ∧ t.pc = s.pc + 2 ∧
      UnchangedExcept (fun c => c = .pc ∨ c = .v x ∨ c = .v 15) s t) ∧
    (∃ t, exec (.subn x y) s = .next t ∧
      (x ≠ 15 → (t.readV x).toNat = ((s.readV y).toNat + 256 - (s.readV x).toNat) % 256) ∧
      (t.readV 15).toNat = (if (s.readV x).toNat ≤ (s.readV y).toNat then 1 else 0) ∧ t.pc = s.pc + 2 ∧
      UnchangedExcept (fun c => c = .pc ∨ c = .v x ∨ c = .v 15) s t)

/-- 8XY6 halves `V[X]` and sets `VF` to its old bit 0; 8XYE doubles `V[X]` modulo 256 and sets `VF` to its old bit 7;
`V[Y]` plays no part, and with `X = 15` the flag remains. Nothing else changes but `pc` (R150, R153; the flag as the
last write is the spec's decision D7). -/
def Obligations.ShiftsSetTheBitShiftedOut : Prop :=
  ∀ (x y : Reg) (s : State),
    (∃ t, exec (.shr x y) s = .next t ∧
      (x ≠ 15 → (t.readV x).toNat = (s.readV x).toNat / 2) ∧
      (t.readV 15).toNat = (s.readV x).toNat % 2 ∧ t.pc = s.pc + 2 ∧
      UnchangedExcept (fun c => c = .pc ∨ c = .v x ∨ c = .v 15) s t) ∧
    (∃ t, exec (.shl x y) s = .next t ∧
      (x ≠ 15 → (t.readV x).toNat = (s.readV x).toNat * 2 % 256) ∧
      (t.readV 15).toNat = (s.readV x).toNat / 128 ∧ t.pc = s.pc + 2 ∧
      UnchangedExcept (fun c => c = .pc ∨ c = .v x ∨ c = .v 15) s t)

/-- CXNN sets `V[X]` to a drawn byte AND `NN`, so that no bit outside `NN` is set, takes one draw, and changes nothing
else but `pc`. The drawn byte is a free value: the statement holds whatever it is (R154, R155; log entry 1). -/
def Obligations.RandomIsADrawUnderItsMask : Prop :=
  ∀ (x : Reg) (nn : Byte) (s : State), ∃ t, exec (.rnd x nn) s = .next t ∧
    t.readV x = (Config.randomByte s.draws &&& nn) ∧ (t.readV x &&& ~~~nn) = 0 ∧ t.draws = s.draws + 1 ∧
    t.pc = s.pc + 2 ∧ UnchangedExcept (fun c => c = .pc ∨ c = .v x ∨ c = .draws) s t

/-! ### Address register and memory -/

/-- ANNN sets `I` to `NNN` and changes nothing else but `pc` (R160). -/
def Obligations.LoadAddressRegister : Prop :=
  ∀ (nnn : Addr12) (s : State), ∃ t, exec (.ldI nnn) s = .next t ∧ t.i.toNat = nnn.toNat ∧ t.pc = s.pc + 2 ∧
    UnchangedExcept (fun c => c = .pc ∨ c = .i) s t

/-- FX1E adds `V[X]` to `I` modulo 65536 without a flag; FX29 sets `I` to five times `V[X]`, not masked; nothing else
changes but `pc` (R161, R162; the wrap, the unmasked digit and the glyph size are the spec's decisions D16, D17, D4). -/
def Obligations.AddressRegisterArithmetic : Prop :=
  ∀ (x : Reg) (s : State),
    (∃ t, exec (.addI x) s = .next t ∧ t.i.toNat = (s.i.toNat + (s.readV x).toNat) % 65536 ∧ t.pc = s.pc + 2 ∧
      UnchangedExcept (fun c => c = .pc ∨ c = .i) s t) ∧
    (∃ t, exec (.ldF x) s = .next t ∧ t.i.toNat = 5 * (s.readV x).toNat ∧ t.pc = s.pc + 2 ∧
      UnchangedExcept (fun c => c = .pc ∨ c = .i) s t)

/-- FX33 with `I` to `I+2` in the writable region stores the hundreds, tens and ones digits of `V[X]` at `I`, `I+1` and
`I+2`; every other byte and everything else but `pc` is unchanged (R163, R164; the region is the spec's decision D11). -/
def Obligations.StoreBcdWritesThreeDigits : Prop :=
  ∀ (x : Reg) (s : State), s.mem.wf = true → 0x200 ≤ s.i.toNat → s.i.toNat + 3 ≤ 4096 →
    ∃ t, exec (.ldB x) s = .next t ∧
      100 * (t.mem.read (s.memOperand 0)).toNat + 10 * (t.mem.read (s.memOperand 1)).toNat +
        (t.mem.read (s.memOperand 2)).toNat = (s.readV x).toNat ∧
      (t.mem.read (s.memOperand 1)).toNat ≤ 9 ∧ (t.mem.read (s.memOperand 2)).toNat ≤ 9 ∧ t.pc = s.pc + 2 ∧
      UnchangedExcept (fun c => c = .pc ∨ ∃ a, s.memOperand 0 ≤ a ∧ a < s.memOperand 3 ∧ c = .byte a) s t

/-- FX55 with `I` to `I+X` in the writable region stores `V[k]` at `I+k` for each `k` up to `X`; every other byte and
everything else but `pc`, `I` too, is unchanged (R165; the region and the unchanged `I` are the spec's decisions D11 and
D15). -/
def Obligations.RegisterDumpStoresInOrder : Prop :=
  ∀ (x : Reg) (s : State), s.mem.wf = true → 0x200 ≤ s.i.toNat → s.i.toNat + x.val + 1 ≤ 4096 →
    ∃ t, exec (.ldMemVx x) s = .next t ∧
      (∀ k : Reg, k ≤ x → t.mem.read (s.memOperand k.val) = s.readV k) ∧ t.pc = s.pc + 2 ∧
      UnchangedExcept (fun c => c = .pc ∨ ∃ a, s.memOperand 0 ≤ a ∧ a < s.memOperand (x.val + 1) ∧ c = .byte a) s t

/-- FX65 with `I` to `I+X` in memory, the reserved region included, loads `V[k]` from `I+k` for each `k` up to `X`;
everything else but `pc`, `I` too, is unchanged (R166; the unchanged `I` is the spec's decision D15). -/
def Obligations.RegisterLoadReadsInOrder : Prop :=
  ∀ (x : Reg) (s : State), s.i.toNat + x.val + 1 ≤ 4096 →
    ∃ t, exec (.ldVxMem x) s = .next t ∧
      (∀ k : Reg, k ≤ x → t.readV k = s.mem.read (s.memOperand k.val)) ∧ t.pc = s.pc + 2 ∧
      UnchangedExcept (fun c => c = .pc ∨ ∃ r, r ≤ x ∧ c = .v r) s t

/-- FX55 and then, with `I` and memory as the dump left them and any registers, FX65 with the same `X` restores `V[0]`
to `V[X]` and leaves the registers above (R167, an inference the spec marks as its own). -/
def Obligations.DumpThenLoadRestoresRegisters : Prop :=
  ∀ (x : Reg) (s t u : State), s.mem.wf = true → 0x200 ≤ s.i.toNat → s.i.toNat + x.val + 1 ≤ 4096 →
    exec (.ldMemVx x) s = .next t → u.mem = t.mem → u.i = t.i →
    ∃ w, exec (.ldVxMem x) u = .next w ∧
      (∀ k : Reg, k ≤ x → w.readV k = s.readV k) ∧ (∀ k : Reg, x < k → w.readV k = u.readV k)

/-! ### Timers and key wait -/

/-- FX07 sets `V[X]` to the delay timer, FX15 sets the delay timer to `V[X]`; nothing else changes but `pc`
(R170, R173). -/
def Obligations.DelayTimerIsReadAndSet : Prop :=
  ∀ (x : Reg) (s : State),
    (∃ t, exec (.ldVxDt x) s = .next t ∧ t.readV x = s.dt ∧ t.pc = s.pc + 2 ∧
      UnchangedExcept (fun c => c = .pc ∨ c = .v x) s t) ∧
    (∃ t, exec (.ldDtVx x) s = .next t ∧ t.dt = s.readV x ∧ t.pc = s.pc + 2 ∧
      UnchangedExcept (fun c => c = .pc ∨ c = .dt) s t)

/-- FX18 sets the sound timer to `V[X]` and changes nothing else but `pc` (R174). -/
def Obligations.SoundTimerIsSet : Prop :=
  ∀ (x : Reg) (s : State), ∃ t, exec (.ldStVx x) s = .next t ∧ t.st = s.readV x ∧ t.pc = s.pc + 2 ∧
    UnchangedExcept (fun c => c = .pc ∨ c = .st) s t

/-- FX0A enters AwaitingKey(X) with `pc` after the instruction, whatever keys are pressed, and changes nothing else
(R171, R172; the mechanics of the wait are the spec's decision D13). -/
def Obligations.WaitForKeyEntersAwaitingKey : Prop :=
  ∀ (x : Reg) (s : State), ∃ t, exec (.ldVxK x) s = .next t ∧ t.mode = .awaitingKey x ∧ t.pc = s.pc + 2 ∧
    UnchangedExcept (fun c => c = .pc ∨ c = .mode) s t

/-! ### The driver's operations -/

/-- tick_timers decrements each nonzero timer by 1, leaves a zero one, changes nothing else, and emits the sound event
exactly when it takes the sound timer from 1 to 0 (R37, R40; the spec's decision D21). -/
def Obligations.TickDecrementsEachTimer : Prop :=
  ∀ s : State, ∃ t sound, transact .tickTimers s = .next (t, .ticked sound) ∧
    t.dt.toNat = s.dt.toNat - 1 ∧ t.st.toNat = s.st.toNat - 1 ∧
    (sound = true ↔ s.st.toNat = 1 ∧ t.st.toNat = 0) ∧ UnchangedExcept (fun c => c = .dt ∨ c = .st) s t

/-- set_key writes the one key and nothing else, in any mode; an index above 15 is refused (R38; the refusal is the
spec's decision D22). -/
def Obligations.SetKeyWritesOneKey : Prop :=
  ∀ (index : Nat) (pressed : Bool) (s : State),
    (∀ k : KeyIndex, index = k.val → ∃ t, transact (.setKey index pressed) s = .next (t, .done) ∧
      t.readKey k = pressed ∧ UnchangedExcept (fun c => c = .key k) s t) ∧
    (15 < index → transact (.setKey index pressed) s = .refused (.keyIndexUndefined index))

/-- load_program of up to 3584 bytes puts byte `k` at `0x200 + k` and changes nothing else; a longer one is refused
(R203; the spec's decision D24). -/
def Obligations.LoadProgramCopiesItsBytes : Prop :=
  ∀ (bytes : List Byte) (s : State), s.mem.wf = true →
    (bytes.length ≤ 3584 → ∃ t, transact (.loadProgram bytes) s = .next (t, .done) ∧
      (∀ k b, bytes[k]? = some b → t.mem.read (0x200 + k) = b) ∧
      UnchangedExcept (fun c => ∃ a, 0x200 ≤ a ∧ a < 0x200 + bytes.length ∧ c = .byte a) s t) ∧
    (3584 < bytes.length → transact (.loadProgram bytes) s = .refused (.programTooLong bytes.length))

/-- reset gives, from every state, the values of the reset table: registers, timers, stack and keys zero, `pc` 0x200,
the font table at 0, every other byte zero, every cell off, Running; a second reset changes nothing (R43, R201; the
place and bytes of the font and of the program are the spec's decisions D3 and D4). -/
def Obligations.ResetGivesTheResetTable : Prop :=
  ∀ s : State, ∃ t, transact .reset s = .next (t, .done) ∧
    (∀ r, t.readV r = 0) ∧ t.i = 0 ∧ t.pc = 0x200 ∧ (∀ k, t.slot k = 0) ∧ t.sp = 0 ∧
    (∀ a, t.mem.read a = if a < 80 then fontTable.getD a 0 else 0) ∧ (∀ x y, t.disp.cell x y = false) ∧
    (∀ k, t.readKey k = false) ∧ t.dt = 0 ∧ t.st = 0 ∧ t.mode = .running ∧
    transact .reset t = .next (t, .done)

/-- display_snapshot changes nothing and gives the 2048 cells in row-major order (R39; the size is the spec's decision
D5). -/
def Obligations.SnapshotIsRowMajor : Prop :=
  ∀ s : State, ∃ cells, transact .displaySnapshot s = .next (s, .grid cells) ∧ cells.length = 2048 ∧
    ∀ (x : Column) (y : Row), cells[y.val * 64 + x.val]? = some (s.disp.cell x y)

/-! ### The whole machine -/

/-- Every instruction, when it does not halt the machine, writes `pc` and its own destinations and nothing else: only
the flag-setting instructions write `VF` as a flag, only ANNN, FX1E and FX29 write `I`, only call and return the stack,
only FX33 and FX55 memory, only 00E0 and DXYN the display, only FX0A the mode, and none the keys (R24, R25, R27, R30,
R32, R33, R60; the flag register's index, Halted and the unchanged `I` are the spec's decisions D6, D12 and D15). -/
def Obligations.EveryInstructionWritesOnlyItsDestinations : Prop :=
  ∀ (i : Instr) (s t : State), s.mem.wf = true → exec i s = .next t →
    (∃ f, t = { s with mode := .halted f }) ∨ UnchangedExcept (fun c => c = .pc ∨ writesOf s i c) s t

/-- Inactive stack slots cannot be observed: states that differ at most in slots at or above `sp` step to states that
differ at most so, with the same report (R28; the spec's decision D23). The two states have the same count of draws, so
the two steps are given the same draw: the model's choice, log entry 1. -/
def Obligations.InactiveStackSlotsAreUnobservable : Prop :=
  ∀ s s' t : State, SameButInactiveSlots s s' → step s = .next t →
    ∃ t', step s' = .next t' ∧ SameButInactiveSlots t t' ∧ stepReport s' = stepReport s

/-- No instruction reads the sound timer: states that differ at most in it step to states that differ at most in it,
with the same report (R29). The two states have the same count of draws, so the two steps are given the same draw: the
model's choice, log entry 1. -/
def Obligations.SoundTimerIsNeverRead : Prop :=
  ∀ s s' t : State, SameButSt s s' → step s = .next t →
    ∃ t', step s' = .next t' ∧ SameButSt t t' ∧ stepReport s' = stepReport s

/-- reset restores the exact construction state, whatever the machine before and in every mode, and a second reset
gives the identical state (R201): the aggregate of R20 after it is that of `construct`, component for component. -/
def Obligations.ResetGivesTheConstructionState : Prop :=
  ∀ s : State, ∃ t, transact .reset s = .next (t, .done) ∧ t.toAggregate = State.reset.toAggregate ∧
    transact .reset t = .next (t, .done)

/-- The count of draws, which is the model's own (log entry 1), reaches the machine only as the byte of a CXNN: two
states with the same aggregate of R20 step to the same aggregate with the same report, but that CXNN's register holds
its own draw in each (R20, R155; that the draw is no part of the machine's state is the spec's decision D20). -/
def Obligations.DrawsReachTheMachineOnlyThroughRandom : Prop :=
  ∀ s s' t : State, s'.toAggregate = s.toAggregate → step s = .next t →
    ∃ t', step s' = .next t' ∧ stepReport s' = stepReport s ∧
      (t'.toAggregate = t.toAggregate ∨
        ∃ w x nn, s.mode = .running ∧ s.fetchWord = some w ∧ decodeWord w = some (.rnd x nn) ∧
          t'.toAggregate = (t.writeV x (Config.randomByte s'.draws &&& nn)).toAggregate)
end

