-- ==== Sys2Proof/Laws/Decode.lean ====
section
/-! SUPPORT. Words and their fields as numbers, the fields of an assembled word, and a word put together again from
its fields. -/

namespace Sys2Proof

/-! ### Words and fields as numbers -/

/-- Concatenation as a number (R9). -/
theorem append_toNat {m n : Nat} (a : BitVec m) (b : BitVec n) : (a ++ b).toNat = a.toNat * 2 ^ n + b.toNat := by
  rw [BitVec.toNat_append, ← Nat.shiftLeft_add_eq_or_of_lt b.isLt, Nat.shiftLeft_eq]

theorem wordOfBytes_toNat (hi lo : Byte) : (wordOfBytes hi lo).toNat = hi.toNat * 256 + lo.toNat :=
  append_toNat hi lo

theorem wordNNN_toNat (op : Nibble) (nnn : Addr12) : (wordNNN op nnn).toNat = op.toNat * 4096 + nnn.toNat :=
  append_toNat op nnn

theorem wordXNN_toNat (op : Nibble) (x : Reg) (nn : Byte) :
    (wordXNN op x nn).toNat = (op.toNat * 16 + x.val) * 256 + nn.toNat :=
  (append_toNat (op ++ (BitVec.ofFin x : Nibble)) nn).trans
    (congrArg (· * 256 + nn.toNat) (append_toNat op (BitVec.ofFin x : Nibble)))

theorem wordXYN_toNat (op : Nibble) (x y : Reg) (n : Nibble) :
    (wordXYN op x y n).toNat = ((op.toNat * 16 + x.val) * 16 + y.val) * 16 + n.toNat :=
  (append_toNat (op ++ (BitVec.ofFin x : Nibble) ++ (BitVec.ofFin y : Nibble)) n).trans
    (congrArg (· * 16 + n.toNat) ((append_toNat (op ++ (BitVec.ofFin x : Nibble)) (BitVec.ofFin y : Nibble)).trans
      (congrArg (· * 16 + y.val) (append_toNat op (BitVec.ofFin x : Nibble)))))

theorem highByte_toNat (w : Word) : (highByte w).toNat = w.toNat / 256 := by
  have := w.isLt
  simp only [highByte, BitVec.extractLsb'_toNat, Nat.shiftRight_eq_div_pow]; omega

theorem lowByte_toNat (w : Word) : (lowByte w).toNat = w.toNat % 256 := by
  simp only [lowByte, BitVec.extractLsb'_toNat, Nat.shiftRight_eq_div_pow]; omega

theorem opField_toNat (w : Word) : (opField w).toNat = w.toNat / 4096 := by
  have := w.isLt
  simp only [opField, BitVec.extractLsb'_toNat, Nat.shiftRight_eq_div_pow]; omega

theorem xField_val (w : Word) : (xField w).val = w.toNat / 256 % 16 := by
  show ((w.extractLsb' 8 4).toNat) = _
  simp only [BitVec.extractLsb'_toNat, Nat.shiftRight_eq_div_pow]

theorem yField_val (w : Word) : (yField w).val = w.toNat / 16 % 16 := by
  show ((w.extractLsb' 4 4).toNat) = _
  simp only [BitVec.extractLsb'_toNat, Nat.shiftRight_eq_div_pow]

theorem nField_toNat (w : Word) : (nField w).toNat = w.toNat % 16 := by
  simp only [nField, BitVec.extractLsb'_toNat, Nat.shiftRight_eq_div_pow]; omega

theorem nnField_toNat (w : Word) : (nnField w).toNat = w.toNat % 256 := by
  simp only [nnField, BitVec.extractLsb'_toNat, Nat.shiftRight_eq_div_pow]; omega

theorem nnnField_toNat (w : Word) : (nnnField w).toNat = w.toNat % 4096 := by
  simp only [nnnField, BitVec.extractLsb'_toNat, Nat.shiftRight_eq_div_pow]; omega

/-! ### Bytes of a word (R56) -/

@[simp] theorem highByte_wordOfBytes (hi lo : Byte) : highByte (wordOfBytes hi lo) = hi := by
  have := lo.isLt
  apply BitVec.eq_of_toNat_eq; rw [highByte_toNat, wordOfBytes_toNat]; omega

@[simp] theorem lowByte_wordOfBytes (hi lo : Byte) : lowByte (wordOfBytes hi lo) = lo := by
  have := lo.isLt
  apply BitVec.eq_of_toNat_eq; rw [lowByte_toNat, wordOfBytes_toNat]; omega

@[simp] theorem wordOfBytes_bytes (w : Word) : wordOfBytes (highByte w) (lowByte w) = w := by
  apply BitVec.eq_of_toNat_eq; rw [wordOfBytes_toNat, highByte_toNat, lowByte_toNat]; omega

/-! ### Fields of an assembled word (R71) -/

@[simp] theorem opField_wordNNN (op : Nibble) (nnn : Addr12) : opField (wordNNN op nnn) = op := by
  have := nnn.isLt
  apply BitVec.eq_of_toNat_eq; rw [opField_toNat, wordNNN_toNat]; omega

@[simp] theorem nnnField_wordNNN (op : Nibble) (nnn : Addr12) : nnnField (wordNNN op nnn) = nnn := by
  have := nnn.isLt
  apply BitVec.eq_of_toNat_eq; rw [nnnField_toNat, wordNNN_toNat]; omega

@[simp] theorem opField_wordXNN (op : Nibble) (x : Reg) (nn : Byte) : opField (wordXNN op x nn) = op := by
  have := nn.isLt; have := x.isLt
  apply BitVec.eq_of_toNat_eq; rw [opField_toNat, wordXNN_toNat]; omega

@[simp] theorem xField_wordXNN (op : Nibble) (x : Reg) (nn : Byte) : xField (wordXNN op x nn) = x := by
  have := nn.isLt; have := x.isLt
  apply Fin.ext; rw [xField_val, wordXNN_toNat]; omega

@[simp] theorem nnField_wordXNN (op : Nibble) (x : Reg) (nn : Byte) : nnField (wordXNN op x nn) = nn := by
  have := nn.isLt
  apply BitVec.eq_of_toNat_eq; rw [nnField_toNat, wordXNN_toNat]; omega

@[simp] theorem opField_wordXYN (op : Nibble) (x y : Reg) (n : Nibble) : opField (wordXYN op x y n) = op := by
  have := n.isLt; have := x.isLt; have := y.isLt
  apply BitVec.eq_of_toNat_eq; rw [opField_toNat, wordXYN_toNat]; omega

@[simp] theorem xField_wordXYN (op : Nibble) (x y : Reg) (n : Nibble) : xField (wordXYN op x y n) = x := by
  have := n.isLt; have := x.isLt; have := y.isLt
  apply Fin.ext; rw [xField_val, wordXYN_toNat]; omega

@[simp] theorem yField_wordXYN (op : Nibble) (x y : Reg) (n : Nibble) : yField (wordXYN op x y n) = y := by
  have := n.isLt; have := x.isLt; have := y.isLt
  apply Fin.ext; rw [yField_val, wordXYN_toNat]; omega

@[simp] theorem nField_wordXYN (op : Nibble) (x y : Reg) (n : Nibble) : nField (wordXYN op x y n) = n := by
  have := n.isLt; have := x.isLt; have := y.isLt
  apply BitVec.eq_of_toNat_eq; rw [nField_toNat, wordXYN_toNat]; omega

/-! ### A word is its fields (R71) -/

theorem wordNNN_fields (w : Word) : wordNNN (opField w) (nnnField w) = w := by
  apply BitVec.eq_of_toNat_eq; rw [wordNNN_toNat, opField_toNat, nnnField_toNat]; omega

theorem wordXNN_fields (w : Word) : wordXNN (opField w) (xField w) (nnField w) = w := by
  apply BitVec.eq_of_toNat_eq; rw [wordXNN_toNat, opField_toNat, xField_val, nnField_toNat]; omega

theorem wordXYN_fields (w : Word) : wordXYN (opField w) (xField w) (yField w) (nField w) = w := by
  apply BitVec.eq_of_toNat_eq; rw [wordXYN_toNat, opField_toNat, xField_val, yField_val, nField_toNat]; omega

/-! ### A word under a mask of R75: each field is kept whole or cleared -/

theorem and_full {n : Nat} (a : BitVec n) : a &&& BitVec.allOnes n = a := BitVec.and_allOnes
theorem and_none {n : Nat} (a : BitVec n) : a &&& 0#n = 0#n := BitVec.and_zero

/-- Masking a concatenation masks its parts. -/
theorem and_parts {m n : Nat} {a a' ma : BitVec m} {b b' mb : BitVec n} (h1 : a &&& ma = a') (h2 : b &&& mb = b') :
    (a ++ b) &&& (ma ++ mb) = a' ++ b' := by
  rw [BitVec.and_append, h1, h2]

theorem wordNNN_mask_op (op : Nibble) (nnn : Addr12) : wordNNN op nnn &&& 0xF000 = wordNNN op 0 :=
  and_parts (and_full op) (and_none nnn)

theorem wordXNN_mask_op (op : Nibble) (x : Reg) (nn : Byte) : wordXNN op x nn &&& 0xF000 = wordXNN op 0 0 :=
  and_parts (and_parts (and_full op) (and_none (BitVec.ofFin x : Nibble))) (and_none nn)

theorem wordXNN_mask_op_byte (op : Nibble) (x : Reg) (nn : Byte) : wordXNN op x nn &&& 0xF0FF = wordXNN op 0 nn :=
  and_parts (and_parts (and_full op) (and_none (BitVec.ofFin x : Nibble))) (and_full nn)

theorem wordXYN_mask_op (op : Nibble) (x y : Reg) (n : Nibble) : wordXYN op x y n &&& 0xF000 = wordXYN op 0 0 0 :=
  and_parts (and_parts (and_parts (and_full op) (and_none (BitVec.ofFin x : Nibble)))
    (and_none (BitVec.ofFin y : Nibble))) (and_none n)

theorem wordXYN_mask_op_nibble (op : Nibble) (x y : Reg) (n : Nibble) :
    wordXYN op x y n &&& 0xF00F = wordXYN op 0 0 n :=
  and_parts (and_parts (and_parts (and_full op) (and_none (BitVec.ofFin x : Nibble)))
    (and_none (BitVec.ofFin y : Nibble))) (and_full n)

end Sys2Proof
end

