-- ==== Sys2Proof/Laws/State.lean ====
section
/-! SUPPORT. What each update of the state does to each field, one lemma for each, so that no later proof unfolds a
record update. -/

namespace Sys2Proof.Machine

/-! #### writeV -/
@[simp] theorem State.writeV_v (s : State) (r : Reg) (b : Byte) : (s.writeV r b).v = s.v.set r.val b r.isLt := rfl
@[simp] theorem State.writeV_i (s : State) (r : Reg) (b : Byte) : (s.writeV r b).i = s.i := rfl
@[simp] theorem State.writeV_pc (s : State) (r : Reg) (b : Byte) : (s.writeV r b).pc = s.pc := rfl
@[simp] theorem State.writeV_stack (s : State) (r : Reg) (b : Byte) : (s.writeV r b).stack = s.stack := rfl
@[simp] theorem State.writeV_sp (s : State) (r : Reg) (b : Byte) : (s.writeV r b).sp = s.sp := rfl
@[simp] theorem State.writeV_mem (s : State) (r : Reg) (b : Byte) : (s.writeV r b).mem = s.mem := rfl
@[simp] theorem State.writeV_disp (s : State) (r : Reg) (b : Byte) : (s.writeV r b).disp = s.disp := rfl
@[simp] theorem State.writeV_key (s : State) (r : Reg) (b : Byte) : (s.writeV r b).key = s.key := rfl
@[simp] theorem State.writeV_dt (s : State) (r : Reg) (b : Byte) : (s.writeV r b).dt = s.dt := rfl
@[simp] theorem State.writeV_st (s : State) (r : Reg) (b : Byte) : (s.writeV r b).st = s.st := rfl
@[simp] theorem State.writeV_mode (s : State) (r : Reg) (b : Byte) : (s.writeV r b).mode = s.mode := rfl
@[simp] theorem State.writeV_draws (s : State) (r : Reg) (b : Byte) : (s.writeV r b).draws = s.draws := rfl

/-! #### setI -/
@[simp] theorem State.setI_v (s : State) (a : Addr) : (s.setI a).v = s.v := rfl
@[simp] theorem State.setI_i (s : State) (a : Addr) : (s.setI a).i = a := rfl
@[simp] theorem State.setI_pc (s : State) (a : Addr) : (s.setI a).pc = s.pc := rfl
@[simp] theorem State.setI_stack (s : State) (a : Addr) : (s.setI a).stack = s.stack := rfl
@[simp] theorem State.setI_sp (s : State) (a : Addr) : (s.setI a).sp = s.sp := rfl
@[simp] theorem State.setI_mem (s : State) (a : Addr) : (s.setI a).mem = s.mem := rfl
@[simp] theorem State.setI_disp (s : State) (a : Addr) : (s.setI a).disp = s.disp := rfl
@[simp] theorem State.setI_key (s : State) (a : Addr) : (s.setI a).key = s.key := rfl
@[simp] theorem State.setI_dt (s : State) (a : Addr) : (s.setI a).dt = s.dt := rfl
@[simp] theorem State.setI_st (s : State) (a : Addr) : (s.setI a).st = s.st := rfl
@[simp] theorem State.setI_mode (s : State) (a : Addr) : (s.setI a).mode = s.mode := rfl
@[simp] theorem State.setI_draws (s : State) (a : Addr) : (s.setI a).draws = s.draws := rfl

/-! #### setPc -/
@[simp] theorem State.setPc_v (s : State) (a : Addr) : (s.setPc a).v = s.v := rfl
@[simp] theorem State.setPc_i (s : State) (a : Addr) : (s.setPc a).i = s.i := rfl
@[simp] theorem State.setPc_pc (s : State) (a : Addr) : (s.setPc a).pc = a := rfl
@[simp] theorem State.setPc_stack (s : State) (a : Addr) : (s.setPc a).stack = s.stack := rfl
@[simp] theorem State.setPc_sp (s : State) (a : Addr) : (s.setPc a).sp = s.sp := rfl
@[simp] theorem State.setPc_mem (s : State) (a : Addr) : (s.setPc a).mem = s.mem := rfl
@[simp] theorem State.setPc_disp (s : State) (a : Addr) : (s.setPc a).disp = s.disp := rfl
@[simp] theorem State.setPc_key (s : State) (a : Addr) : (s.setPc a).key = s.key := rfl
@[simp] theorem State.setPc_dt (s : State) (a : Addr) : (s.setPc a).dt = s.dt := rfl
@[simp] theorem State.setPc_st (s : State) (a : Addr) : (s.setPc a).st = s.st := rfl
@[simp] theorem State.setPc_mode (s : State) (a : Addr) : (s.setPc a).mode = s.mode := rfl
@[simp] theorem State.setPc_draws (s : State) (a : Addr) : (s.setPc a).draws = s.draws := rfl

/-! #### advance -/
@[simp] theorem State.advance_v (s : State) : (s.advance).v = s.v := rfl
@[simp] theorem State.advance_i (s : State) : (s.advance).i = s.i := rfl
@[simp] theorem State.advance_pc (s : State) : (s.advance).pc = s.pc + 2 := rfl
@[simp] theorem State.advance_stack (s : State) : (s.advance).stack = s.stack := rfl
@[simp] theorem State.advance_sp (s : State) : (s.advance).sp = s.sp := rfl
@[simp] theorem State.advance_mem (s : State) : (s.advance).mem = s.mem := rfl
@[simp] theorem State.advance_disp (s : State) : (s.advance).disp = s.disp := rfl
@[simp] theorem State.advance_key (s : State) : (s.advance).key = s.key := rfl
@[simp] theorem State.advance_dt (s : State) : (s.advance).dt = s.dt := rfl
@[simp] theorem State.advance_st (s : State) : (s.advance).st = s.st := rfl
@[simp] theorem State.advance_mode (s : State) : (s.advance).mode = s.mode := rfl
@[simp] theorem State.advance_draws (s : State) : (s.advance).draws = s.draws := rfl

/-! #### setMem -/
@[simp] theorem State.setMem_v (s : State) (m : Memory) : (s.setMem m).v = s.v := rfl
@[simp] theorem State.setMem_i (s : State) (m : Memory) : (s.setMem m).i = s.i := rfl
@[simp] theorem State.setMem_pc (s : State) (m : Memory) : (s.setMem m).pc = s.pc := rfl
@[simp] theorem State.setMem_stack (s : State) (m : Memory) : (s.setMem m).stack = s.stack := rfl
@[simp] theorem State.setMem_sp (s : State) (m : Memory) : (s.setMem m).sp = s.sp := rfl
@[simp] theorem State.setMem_mem (s : State) (m : Memory) : (s.setMem m).mem = m := rfl
@[simp] theorem State.setMem_disp (s : State) (m : Memory) : (s.setMem m).disp = s.disp := rfl
@[simp] theorem State.setMem_key (s : State) (m : Memory) : (s.setMem m).key = s.key := rfl
@[simp] theorem State.setMem_dt (s : State) (m : Memory) : (s.setMem m).dt = s.dt := rfl
@[simp] theorem State.setMem_st (s : State) (m : Memory) : (s.setMem m).st = s.st := rfl
@[simp] theorem State.setMem_mode (s : State) (m : Memory) : (s.setMem m).mode = s.mode := rfl
@[simp] theorem State.setMem_draws (s : State) (m : Memory) : (s.setMem m).draws = s.draws := rfl

/-! #### setDisp -/
@[simp] theorem State.setDisp_v (s : State) (d : Display) : (s.setDisp d).v = s.v := rfl
@[simp] theorem State.setDisp_i (s : State) (d : Display) : (s.setDisp d).i = s.i := rfl
@[simp] theorem State.setDisp_pc (s : State) (d : Display) : (s.setDisp d).pc = s.pc := rfl
@[simp] theorem State.setDisp_stack (s : State) (d : Display) : (s.setDisp d).stack = s.stack := rfl
@[simp] theorem State.setDisp_sp (s : State) (d : Display) : (s.setDisp d).sp = s.sp := rfl
@[simp] theorem State.setDisp_mem (s : State) (d : Display) : (s.setDisp d).mem = s.mem := rfl
@[simp] theorem State.setDisp_disp (s : State) (d : Display) : (s.setDisp d).disp = d := rfl
@[simp] theorem State.setDisp_key (s : State) (d : Display) : (s.setDisp d).key = s.key := rfl
@[simp] theorem State.setDisp_dt (s : State) (d : Display) : (s.setDisp d).dt = s.dt := rfl
@[simp] theorem State.setDisp_st (s : State) (d : Display) : (s.setDisp d).st = s.st := rfl
@[simp] theorem State.setDisp_mode (s : State) (d : Display) : (s.setDisp d).mode = s.mode := rfl
@[simp] theorem State.setDisp_draws (s : State) (d : Display) : (s.setDisp d).draws = s.draws := rfl

/-! #### setDt -/
@[simp] theorem State.setDt_v (s : State) (b : Byte) : (s.setDt b).v = s.v := rfl
@[simp] theorem State.setDt_i (s : State) (b : Byte) : (s.setDt b).i = s.i := rfl
@[simp] theorem State.setDt_pc (s : State) (b : Byte) : (s.setDt b).pc = s.pc := rfl
@[simp] theorem State.setDt_stack (s : State) (b : Byte) : (s.setDt b).stack = s.stack := rfl
@[simp] theorem State.setDt_sp (s : State) (b : Byte) : (s.setDt b).sp = s.sp := rfl
@[simp] theorem State.setDt_mem (s : State) (b : Byte) : (s.setDt b).mem = s.mem := rfl
@[simp] theorem State.setDt_disp (s : State) (b : Byte) : (s.setDt b).disp = s.disp := rfl
@[simp] theorem State.setDt_key (s : State) (b : Byte) : (s.setDt b).key = s.key := rfl
@[simp] theorem State.setDt_dt (s : State) (b : Byte) : (s.setDt b).dt = b := rfl
@[simp] theorem State.setDt_st (s : State) (b : Byte) : (s.setDt b).st = s.st := rfl
@[simp] theorem State.setDt_mode (s : State) (b : Byte) : (s.setDt b).mode = s.mode := rfl
@[simp] theorem State.setDt_draws (s : State) (b : Byte) : (s.setDt b).draws = s.draws := rfl

/-! #### setSt -/
@[simp] theorem State.setSt_v (s : State) (b : Byte) : (s.setSt b).v = s.v := rfl
@[simp] theorem State.setSt_i (s : State) (b : Byte) : (s.setSt b).i = s.i := rfl
@[simp] theorem State.setSt_pc (s : State) (b : Byte) : (s.setSt b).pc = s.pc := rfl
@[simp] theorem State.setSt_stack (s : State) (b : Byte) : (s.setSt b).stack = s.stack := rfl
@[simp] theorem State.setSt_sp (s : State) (b : Byte) : (s.setSt b).sp = s.sp := rfl
@[simp] theorem State.setSt_mem (s : State) (b : Byte) : (s.setSt b).mem = s.mem := rfl
@[simp] theorem State.setSt_disp (s : State) (b : Byte) : (s.setSt b).disp = s.disp := rfl
@[simp] theorem State.setSt_key (s : State) (b : Byte) : (s.setSt b).key = s.key := rfl
@[simp] theorem State.setSt_dt (s : State) (b : Byte) : (s.setSt b).dt = s.dt := rfl
@[simp] theorem State.setSt_st (s : State) (b : Byte) : (s.setSt b).st = b := rfl
@[simp] theorem State.setSt_mode (s : State) (b : Byte) : (s.setSt b).mode = s.mode := rfl
@[simp] theorem State.setSt_draws (s : State) (b : Byte) : (s.setSt b).draws = s.draws := rfl

/-! #### setMode -/
@[simp] theorem State.setMode_v (s : State) (m : Mode) : (s.setMode m).v = s.v := rfl
@[simp] theorem State.setMode_i (s : State) (m : Mode) : (s.setMode m).i = s.i := rfl
@[simp] theorem State.setMode_pc (s : State) (m : Mode) : (s.setMode m).pc = s.pc := rfl
@[simp] theorem State.setMode_stack (s : State) (m : Mode) : (s.setMode m).stack = s.stack := rfl
@[simp] theorem State.setMode_sp (s : State) (m : Mode) : (s.setMode m).sp = s.sp := rfl
@[simp] theorem State.setMode_mem (s : State) (m : Mode) : (s.setMode m).mem = s.mem := rfl
@[simp] theorem State.setMode_disp (s : State) (m : Mode) : (s.setMode m).disp = s.disp := rfl
@[simp] theorem State.setMode_key (s : State) (m : Mode) : (s.setMode m).key = s.key := rfl
@[simp] theorem State.setMode_dt (s : State) (m : Mode) : (s.setMode m).dt = s.dt := rfl
@[simp] theorem State.setMode_st (s : State) (m : Mode) : (s.setMode m).st = s.st := rfl
@[simp] theorem State.setMode_mode (s : State) (m : Mode) : (s.setMode m).mode = m := rfl
@[simp] theorem State.setMode_draws (s : State) (m : Mode) : (s.setMode m).draws = s.draws := rfl

/-! #### drawn -/
@[simp] theorem State.drawn_v (s : State) : (s.drawn).v = s.v := rfl
@[simp] theorem State.drawn_i (s : State) : (s.drawn).i = s.i := rfl
@[simp] theorem State.drawn_pc (s : State) : (s.drawn).pc = s.pc := rfl
@[simp] theorem State.drawn_stack (s : State) : (s.drawn).stack = s.stack := rfl
@[simp] theorem State.drawn_sp (s : State) : (s.drawn).sp = s.sp := rfl
@[simp] theorem State.drawn_mem (s : State) : (s.drawn).mem = s.mem := rfl
@[simp] theorem State.drawn_disp (s : State) : (s.drawn).disp = s.disp := rfl
@[simp] theorem State.drawn_key (s : State) : (s.drawn).key = s.key := rfl
@[simp] theorem State.drawn_dt (s : State) : (s.drawn).dt = s.dt := rfl
@[simp] theorem State.drawn_st (s : State) : (s.drawn).st = s.st := rfl
@[simp] theorem State.drawn_mode (s : State) : (s.drawn).mode = s.mode := rfl
@[simp] theorem State.drawn_toAggregate (s : State) : (s.drawn).toAggregate = s.toAggregate := rfl
@[simp] theorem State.drawn_draws (s : State) : (s.drawn).draws = s.draws + 1 := rfl

/-! #### halt -/
@[simp] theorem State.halt_v (s : State) (f : FaultRecord) : (s.halt f).v = s.v := rfl
@[simp] theorem State.halt_i (s : State) (f : FaultRecord) : (s.halt f).i = s.i := rfl
@[simp] theorem State.halt_pc (s : State) (f : FaultRecord) : (s.halt f).pc = s.pc := rfl
@[simp] theorem State.halt_stack (s : State) (f : FaultRecord) : (s.halt f).stack = s.stack := rfl
@[simp] theorem State.halt_sp (s : State) (f : FaultRecord) : (s.halt f).sp = s.sp := rfl
@[simp] theorem State.halt_mem (s : State) (f : FaultRecord) : (s.halt f).mem = s.mem := rfl
@[simp] theorem State.halt_disp (s : State) (f : FaultRecord) : (s.halt f).disp = s.disp := rfl
@[simp] theorem State.halt_key (s : State) (f : FaultRecord) : (s.halt f).key = s.key := rfl
@[simp] theorem State.halt_dt (s : State) (f : FaultRecord) : (s.halt f).dt = s.dt := rfl
@[simp] theorem State.halt_st (s : State) (f : FaultRecord) : (s.halt f).st = s.st := rfl
@[simp] theorem State.halt_mode (s : State) (f : FaultRecord) : (s.halt f).mode = .halted f := rfl
@[simp] theorem State.halt_draws (s : State) (f : FaultRecord) : (s.halt f).draws = s.draws := rfl

/-! #### tickTimers -/
@[simp] theorem State.tickTimers_v (s : State) : (s.tickTimers).v = s.v := rfl
@[simp] theorem State.tickTimers_i (s : State) : (s.tickTimers).i = s.i := rfl
@[simp] theorem State.tickTimers_pc (s : State) : (s.tickTimers).pc = s.pc := rfl
@[simp] theorem State.tickTimers_stack (s : State) : (s.tickTimers).stack = s.stack := rfl
@[simp] theorem State.tickTimers_sp (s : State) : (s.tickTimers).sp = s.sp := rfl
@[simp] theorem State.tickTimers_mem (s : State) : (s.tickTimers).mem = s.mem := rfl
@[simp] theorem State.tickTimers_disp (s : State) : (s.tickTimers).disp = s.disp := rfl
@[simp] theorem State.tickTimers_key (s : State) : (s.tickTimers).key = s.key := rfl
@[simp] theorem State.tickTimers_dt (s : State) : (s.tickTimers).dt = tickDown s.dt := rfl
@[simp] theorem State.tickTimers_st (s : State) : (s.tickTimers).st = tickDown s.st := rfl
@[simp] theorem State.tickTimers_mode (s : State) : (s.tickTimers).mode = s.mode := rfl
@[simp] theorem State.tickTimers_draws (s : State) : (s.tickTimers).draws = s.draws := rfl

/-! #### resetMachine -/
@[simp] theorem State.resetMachine_v (s : State) : (s.resetMachine).v = State.reset.v := rfl
@[simp] theorem State.resetMachine_i (s : State) : (s.resetMachine).i = State.reset.i := rfl
@[simp] theorem State.resetMachine_pc (s : State) : (s.resetMachine).pc = State.reset.pc := rfl
@[simp] theorem State.resetMachine_stack (s : State) : (s.resetMachine).stack = State.reset.stack := rfl
@[simp] theorem State.resetMachine_sp (s : State) : (s.resetMachine).sp = State.reset.sp := rfl
@[simp] theorem State.resetMachine_mem (s : State) : (s.resetMachine).mem = State.reset.mem := rfl
@[simp] theorem State.resetMachine_disp (s : State) : (s.resetMachine).disp = State.reset.disp := rfl
@[simp] theorem State.resetMachine_key (s : State) : (s.resetMachine).key = State.reset.key := rfl
@[simp] theorem State.resetMachine_dt (s : State) : (s.resetMachine).dt = State.reset.dt := rfl
@[simp] theorem State.resetMachine_st (s : State) : (s.resetMachine).st = State.reset.st := rfl
@[simp] theorem State.resetMachine_mode (s : State) : (s.resetMachine).mode = State.reset.mode := rfl
@[simp] theorem State.resetMachine_toAggregate (s : State) : (s.resetMachine).toAggregate = Aggregate.reset := rfl
@[simp] theorem State.reset_toAggregate : State.reset.toAggregate = Aggregate.reset := rfl
@[simp] theorem State.resetMachine_draws (s : State) : (s.resetMachine).draws = s.draws := rfl

/-! #### skipIf, writeFlag, writeWithFlag -/
@[simp] theorem State.skipIf_v (s : State) (c : Bool) : (s.skipIf c).v = s.v := by
  cases c <;> rfl
@[simp] theorem State.skipIf_i (s : State) (c : Bool) : (s.skipIf c).i = s.i := by
  cases c <;> rfl
@[simp] theorem State.skipIf_stack (s : State) (c : Bool) : (s.skipIf c).stack = s.stack := by
  cases c <;> rfl
@[simp] theorem State.skipIf_sp (s : State) (c : Bool) : (s.skipIf c).sp = s.sp := by
  cases c <;> rfl
@[simp] theorem State.skipIf_mem (s : State) (c : Bool) : (s.skipIf c).mem = s.mem := by
  cases c <;> rfl
@[simp] theorem State.skipIf_disp (s : State) (c : Bool) : (s.skipIf c).disp = s.disp := by
  cases c <;> rfl
@[simp] theorem State.skipIf_key (s : State) (c : Bool) : (s.skipIf c).key = s.key := by
  cases c <;> rfl
@[simp] theorem State.skipIf_dt (s : State) (c : Bool) : (s.skipIf c).dt = s.dt := by
  cases c <;> rfl
@[simp] theorem State.skipIf_st (s : State) (c : Bool) : (s.skipIf c).st = s.st := by
  cases c <;> rfl
@[simp] theorem State.skipIf_mode (s : State) (c : Bool) : (s.skipIf c).mode = s.mode := by
  cases c <;> rfl
@[simp] theorem State.skipIf_draws (s : State) (c : Bool) : (s.skipIf c).draws = s.draws := by
  cases c <;> rfl
@[simp] theorem State.skipIf_pc (s : State) (c : Bool) : (s.skipIf c).pc = if c then s.pc + 2 else s.pc := by
  cases c <;> rfl
@[simp] theorem State.writeFlag_i (s : State) (c : Bool) : (s.writeFlag c).i = s.i := rfl
@[simp] theorem State.writeWithFlag_i (s : State) (x : Reg) (b : Byte) (c : Bool) :
    (s.writeWithFlag x b c).i = s.i := rfl
@[simp] theorem State.writeFlag_pc (s : State) (c : Bool) : (s.writeFlag c).pc = s.pc := rfl
@[simp] theorem State.writeWithFlag_pc (s : State) (x : Reg) (b : Byte) (c : Bool) :
    (s.writeWithFlag x b c).pc = s.pc := rfl
@[simp] theorem State.writeFlag_stack (s : State) (c : Bool) : (s.writeFlag c).stack = s.stack := rfl
@[simp] theorem State.writeWithFlag_stack (s : State) (x : Reg) (b : Byte) (c : Bool) :
    (s.writeWithFlag x b c).stack = s.stack := rfl
@[simp] theorem State.writeFlag_sp (s : State) (c : Bool) : (s.writeFlag c).sp = s.sp := rfl
@[simp] theorem State.writeWithFlag_sp (s : State) (x : Reg) (b : Byte) (c : Bool) :
    (s.writeWithFlag x b c).sp = s.sp := rfl
@[simp] theorem State.writeFlag_mem (s : State) (c : Bool) : (s.writeFlag c).mem = s.mem := rfl
@[simp] theorem State.writeWithFlag_mem (s : State) (x : Reg) (b : Byte) (c : Bool) :
    (s.writeWithFlag x b c).mem = s.mem := rfl
@[simp] theorem State.writeFlag_disp (s : State) (c : Bool) : (s.writeFlag c).disp = s.disp := rfl
@[simp] theorem State.writeWithFlag_disp (s : State) (x : Reg) (b : Byte) (c : Bool) :
    (s.writeWithFlag x b c).disp = s.disp := rfl
@[simp] theorem State.writeFlag_key (s : State) (c : Bool) : (s.writeFlag c).key = s.key := rfl
@[simp] theorem State.writeWithFlag_key (s : State) (x : Reg) (b : Byte) (c : Bool) :
    (s.writeWithFlag x b c).key = s.key := rfl
@[simp] theorem State.writeFlag_dt (s : State) (c : Bool) : (s.writeFlag c).dt = s.dt := rfl
@[simp] theorem State.writeWithFlag_dt (s : State) (x : Reg) (b : Byte) (c : Bool) :
    (s.writeWithFlag x b c).dt = s.dt := rfl
@[simp] theorem State.writeFlag_st (s : State) (c : Bool) : (s.writeFlag c).st = s.st := rfl
@[simp] theorem State.writeWithFlag_st (s : State) (x : Reg) (b : Byte) (c : Bool) :
    (s.writeWithFlag x b c).st = s.st := rfl
@[simp] theorem State.writeFlag_mode (s : State) (c : Bool) : (s.writeFlag c).mode = s.mode := rfl
@[simp] theorem State.writeWithFlag_mode (s : State) (x : Reg) (b : Byte) (c : Bool) :
    (s.writeWithFlag x b c).mode = s.mode := rfl
@[simp] theorem State.writeFlag_draws (s : State) (c : Bool) : (s.writeFlag c).draws = s.draws := rfl
@[simp] theorem State.writeWithFlag_draws (s : State) (x : Reg) (b : Byte) (c : Bool) :
    (s.writeWithFlag x b c).draws = s.draws := rfl

/-! #### readV of every update -/
@[simp] theorem State.readV_setI (s : State) (a : Addr) (q : Reg) : (s.setI a).readV q = s.readV q := rfl
@[simp] theorem State.readV_setPc (s : State) (a : Addr) (q : Reg) : (s.setPc a).readV q = s.readV q := rfl
@[simp] theorem State.readV_advance (s : State) (q : Reg) : (s.advance).readV q = s.readV q := rfl
@[simp] theorem State.readV_setMem (s : State) (m : Memory) (q : Reg) : (s.setMem m).readV q = s.readV q := rfl
@[simp] theorem State.readV_setDisp (s : State) (d : Display) (q : Reg) : (s.setDisp d).readV q = s.readV q := rfl
@[simp] theorem State.readV_setDt (s : State) (b : Byte) (q : Reg) : (s.setDt b).readV q = s.readV q := rfl
@[simp] theorem State.readV_setSt (s : State) (b : Byte) (q : Reg) : (s.setSt b).readV q = s.readV q := rfl
@[simp] theorem State.readV_setMode (s : State) (m : Mode) (q : Reg) : (s.setMode m).readV q = s.readV q := rfl
@[simp] theorem State.readV_drawn (s : State) (q : Reg) : (s.drawn).readV q = s.readV q := rfl
@[simp] theorem State.readV_halt (s : State) (f : FaultRecord) (q : Reg) : (s.halt f).readV q = s.readV q := rfl
@[simp] theorem State.readV_tickTimers (s : State) (q : Reg) : (s.tickTimers).readV q = s.readV q := rfl
@[simp] theorem State.readV_skipIf (s : State) (c : Bool) (q : Reg) : (s.skipIf c).readV q = s.readV q := by
  cases c <;> rfl

/-- Read after write of the register file (R21). -/
theorem State.readV_writeV (s : State) (r : Reg) (b : Byte) (q : Reg) :
    (s.writeV r b).readV q = if q = r then b else s.readV q := by
  simp only [State.readV, State.writeV, Vector.getElem_set, Fin.ext_iff, eq_comm]

@[simp] theorem State.readV_writeV_same (s : State) (r : Reg) (b : Byte) : (s.writeV r b).readV r = b := by
  simp [State.readV_writeV]

@[simp] theorem State.readV_writeV_other (s : State) (r : Reg) (b : Byte) (q : Reg) (h : q ≠ r) :
    (s.writeV r b).readV q = s.readV q := by
  simp [State.readV_writeV, h]

/-- The flag is in `V[15]`, the other registers are as before (R24). -/
theorem State.readV_writeFlag (s : State) (c : Bool) (q : Reg) :
    (s.writeFlag c).readV q = if q = 15 then flagByte c else s.readV q :=
  State.readV_writeV s Config.vf (flagByte c) q

/-- Result and flag: the flag in `V[15]` whatever `x` is, the result in `V[x]` otherwise (R24, R149). -/
theorem State.readV_writeWithFlag (s : State) (x : Reg) (b : Byte) (c : Bool) (q : Reg) :
    (s.writeWithFlag x b c).readV q = if q = 15 then flagByte c else if q = x then b else s.readV q := by
  simp only [State.writeWithFlag, State.readV_writeFlag, State.readV_writeV]

/-! #### The other readers of an update -/
@[simp] theorem State.slot_writeV (s : State) (r : Reg) (b : Byte) (q : Fin 16) : (s.writeV r b).slot q = s.slot q := rfl
@[simp] theorem State.slot_setI (s : State) (a : Addr) (q : Fin 16) : (s.setI a).slot q = s.slot q := rfl
@[simp] theorem State.slot_setPc (s : State) (a : Addr) (q : Fin 16) : (s.setPc a).slot q = s.slot q := rfl
@[simp] theorem State.slot_advance (s : State) (q : Fin 16) : (s.advance).slot q = s.slot q := rfl
@[simp] theorem State.slot_setMem (s : State) (m : Memory) (q : Fin 16) : (s.setMem m).slot q = s.slot q := rfl
@[simp] theorem State.slot_setDisp (s : State) (d : Display) (q : Fin 16) : (s.setDisp d).slot q = s.slot q := rfl
@[simp] theorem State.slot_setDt (s : State) (b : Byte) (q : Fin 16) : (s.setDt b).slot q = s.slot q := rfl
@[simp] theorem State.slot_setSt (s : State) (b : Byte) (q : Fin 16) : (s.setSt b).slot q = s.slot q := rfl
@[simp] theorem State.slot_setMode (s : State) (m : Mode) (q : Fin 16) : (s.setMode m).slot q = s.slot q := rfl
@[simp] theorem State.slot_drawn (s : State) (q : Fin 16) : (s.drawn).slot q = s.slot q := rfl
@[simp] theorem State.slot_halt (s : State) (f : FaultRecord) (q : Fin 16) : (s.halt f).slot q = s.slot q := rfl
@[simp] theorem State.slot_tickTimers (s : State) (q : Fin 16) : (s.tickTimers).slot q = s.slot q := rfl
@[simp] theorem State.slot_skipIf (s : State) (c : Bool) (q : Fin 16) : (s.skipIf c).slot q = s.slot q := by
  cases c <;> rfl
@[simp] theorem State.slot_writeFlag (s : State) (c : Bool) (q : Fin 16) : (s.writeFlag c).slot q = s.slot q := rfl
@[simp] theorem State.slot_writeWithFlag (s : State) (x : Reg) (b : Byte) (c : Bool) (q : Fin 16) :
    (s.writeWithFlag x b c).slot q = s.slot q := rfl
@[simp] theorem State.readKey_writeV (s : State) (r : Reg) (b : Byte) (q : KeyIndex) : (s.writeV r b).readKey q = s.readKey q := rfl
@[simp] theorem State.readKey_setI (s : State) (a : Addr) (q : KeyIndex) : (s.setI a).readKey q = s.readKey q := rfl
@[simp] theorem State.readKey_setPc (s : State) (a : Addr) (q : KeyIndex) : (s.setPc a).readKey q = s.readKey q := rfl
@[simp] theorem State.readKey_advance (s : State) (q : KeyIndex) : (s.advance).readKey q = s.readKey q := rfl
@[simp] theorem State.readKey_setMem (s : State) (m : Memory) (q : KeyIndex) : (s.setMem m).readKey q = s.readKey q := rfl
@[simp] theorem State.readKey_setDisp (s : State) (d : Display) (q : KeyIndex) : (s.setDisp d).readKey q = s.readKey q := rfl
@[simp] theorem State.readKey_setDt (s : State) (b : Byte) (q : KeyIndex) : (s.setDt b).readKey q = s.readKey q := rfl
@[simp] theorem State.readKey_setSt (s : State) (b : Byte) (q : KeyIndex) : (s.setSt b).readKey q = s.readKey q := rfl
@[simp] theorem State.readKey_setMode (s : State) (m : Mode) (q : KeyIndex) : (s.setMode m).readKey q = s.readKey q := rfl
@[simp] theorem State.readKey_drawn (s : State) (q : KeyIndex) : (s.drawn).readKey q = s.readKey q := rfl
@[simp] theorem State.readKey_halt (s : State) (f : FaultRecord) (q : KeyIndex) : (s.halt f).readKey q = s.readKey q := rfl
@[simp] theorem State.readKey_tickTimers (s : State) (q : KeyIndex) : (s.tickTimers).readKey q = s.readKey q := rfl
@[simp] theorem State.readKey_skipIf (s : State) (c : Bool) (q : KeyIndex) : (s.skipIf c).readKey q = s.readKey q := by
  cases c <;> rfl
@[simp] theorem State.readKey_writeFlag (s : State) (c : Bool) (q : KeyIndex) : (s.writeFlag c).readKey q = s.readKey q := rfl
@[simp] theorem State.readKey_writeWithFlag (s : State) (x : Reg) (b : Byte) (c : Bool) (q : KeyIndex) :
    (s.writeWithFlag x b c).readKey q = s.readKey q := rfl
@[simp] theorem State.memOperand_eq (s : State) (k : Nat) : s.memOperand k = s.i.toNat + k := rfl

/-- Two states with the same value in every field are equal. -/
theorem State.ext_fields {s t : State} (hv : s.v = t.v) (hi : s.i = t.i) (hpc : s.pc = t.pc) (hstack : s.stack = t.stack)
    (hsp : s.sp = t.sp) (hmem : s.mem = t.mem) (hdisp : s.disp = t.disp) (hkey : s.key = t.key) (hdt : s.dt = t.dt)
    (hst : s.st = t.st) (hmode : s.mode = t.mode) (hdraws : s.draws = t.draws) : s = t := by
  obtain ⟨⟨⟩, _⟩ := s; obtain ⟨⟨⟩, _⟩ := t; simp_all

/-- A state is its machine and its count of draws. -/
theorem State.ext_aggregate {s t : State} (h : s.toAggregate = t.toAggregate) (hdraws : s.draws = t.draws) : s = t := by
  cases s; cases t; simp_all

end Sys2Proof.Machine
end

