-- ==== Sys2Proof/Laws/Memory.lean ====
section
/-! SUPPORT. The laws of the memory array: canonical form, read after write, the reserved region, sequences of bytes,
and the checks of a range of addresses. -/

namespace Sys2Proof.Machine

/-! ### Canonical form -/

theorem Memory.wfFrom_mono {lo lo' : Nat} (h : lo' ≤ lo) {m : Memory} (hm : Memory.wfFrom lo m = true) :
    Memory.wfFrom lo' m = true := by
  cases m with
  | nil => rfl
  | cons c m =>
    simp only [Memory.wfFrom, Bool.and_eq_true, decide_eq_true_eq] at hm ⊢
    exact ⟨⟨by omega, hm.1.2⟩, hm.2⟩

theorem Memory.wf_of_wfFrom {lo : Nat} {m : Memory} (hm : Memory.wfFrom lo m = true) : m.wf = true :=
  Memory.wfFrom_mono (Nat.zero_le lo) hm

/-- Below the first listed address everything reads as after reset. -/
theorem Memory.read_below {lo : Nat} {m : Memory} (hm : Memory.wfFrom lo m = true) {a : Nat} (ha : a < lo) :
    m.read a = Memory.blank a := by
  induction m generalizing lo with
  | nil => rfl
  | cons c m ih =>
    simp only [Memory.wfFrom, Bool.and_eq_true, decide_eq_true_eq] at hm
    have : c.1 ≠ a := by omega
    simp only [Memory.read, this, if_false]
    exact ih hm.2 (by omega)

theorem Memory.wfFrom_insert {lo : Nat} {m : Memory} (hm : Memory.wfFrom lo m = true) {a : Nat} (ha : lo ≤ a) {b : Byte}
    (hb : b ≠ Memory.blank a) : Memory.wfFrom lo (m.insert a b) = true := by
  induction m generalizing lo with
  | nil => simp [Memory.insert, Memory.wfFrom, ha, hb]
  | cons c m ih =>
    simp only [Memory.wfFrom, Bool.and_eq_true, decide_eq_true_eq] at hm
    simp only [Memory.insert]
    split
    · simp only [Memory.wfFrom, Bool.and_eq_true, decide_eq_true_eq, bne_iff_ne]
      exact ⟨⟨ha, hb⟩, ⟨by omega, bne_iff_ne.mp hm.1.2⟩, hm.2⟩
    · split
      · next h => subst h; simp only [Memory.wfFrom, Bool.and_eq_true, decide_eq_true_eq, bne_iff_ne]
                  exact ⟨⟨ha, hb⟩, hm.2⟩
      · simp only [Memory.wfFrom, Bool.and_eq_true, decide_eq_true_eq]
        exact ⟨hm.1, ih hm.2 (by omega)⟩

theorem Memory.wfFrom_erase {lo : Nat} {m : Memory} (hm : Memory.wfFrom lo m = true) (a : Nat) :
    Memory.wfFrom lo (m.erase a) = true := by
  induction m generalizing lo with
  | nil => rfl
  | cons c m ih =>
    simp only [Memory.wfFrom, Bool.and_eq_true, decide_eq_true_eq] at hm
    simp only [Memory.erase]
    split
    · exact Memory.wfFrom_mono (by omega) hm.2
    · simp only [Memory.wfFrom, Bool.and_eq_true, decide_eq_true_eq]
      exact ⟨hm.1, ih hm.2⟩

/-- Every write keeps the canonical form. -/
theorem Memory.wf_write {m : Memory} (hm : m.wf = true) (a : Nat) (b : Byte) : (m.write a b).wf = true := by
  unfold Memory.write
  split
  · exact Memory.wfFrom_erase hm a
  · exact Memory.wfFrom_insert hm (Nat.zero_le a) ‹_›

theorem Memory.wf_writeBytes {m : Memory} (hm : m.wf = true) (a : Nat) (bs : List Byte) :
    (m.writeBytes a bs).wf = true := by
  induction bs generalizing m a with
  | nil => exact hm
  | cons b bs ih => exact ih (Memory.wf_write hm a b) (a + 1)

/-! ### Read after write -/

theorem Memory.read_insert (m : Memory) (a : Nat) (b : Byte) (c : Nat) :
    (m.insert a b).read c = if c = a then b else m.read c := by
  induction m with
  | nil => simp only [Memory.insert, Memory.read, eq_comm]
  | cons d m ih =>
    simp only [Memory.insert]
    split
    · simp only [Memory.read, eq_comm]
    · split
      · next h =>
        subst h
        simp only [Memory.read]
        by_cases hc : d.1 = c
        · rw [if_pos hc, if_pos hc.symm]
        · rw [if_neg hc, if_neg (Ne.symm hc), if_neg hc]
      · next h =>
        simp only [Memory.read, ih]
        by_cases hc : d.1 = c
        · rw [if_pos hc, if_pos hc, if_neg (by rintro rfl; exact h hc.symm)]
        · rw [if_neg hc, if_neg hc]

theorem Memory.read_erase {lo : Nat} {m : Memory} (hm : Memory.wfFrom lo m = true) (a c : Nat) :
    (m.erase a).read c = if c = a then Memory.blank a else m.read c := by
  induction m generalizing lo with
  | nil => simp only [Memory.erase, Memory.read]; split <;> simp_all
  | cons d m ih =>
    simp only [Memory.wfFrom, Bool.and_eq_true, decide_eq_true_eq] at hm
    simp only [Memory.erase]
    split
    · next h =>
      subst h
      split
      · next h => subst h; exact Memory.read_below hm.2 (Nat.lt_succ_self _)
      · next h => simp only [Memory.read, if_neg (Ne.symm h)]
    · next h =>
      simp only [Memory.read, ih hm.2]
      by_cases hc : d.1 = c
      · rw [if_pos hc, if_pos hc, if_neg (by rintro rfl; exact h hc.symm)]
      · rw [if_neg hc, if_neg hc]

/-- Read after write (R53, R54): the byte written at its address, every other address as before. -/
theorem Memory.read_write {m : Memory} (hm : m.wf = true) (a : Nat) (b : Byte) (c : Nat) :
    (m.write a b).read c = if c = a then b else m.read c := by
  unfold Memory.write
  split
  · next h => rw [Memory.read_erase hm, h]
  · exact Memory.read_insert m a b c

/-- Read after a sequence of writes: the sequence's bytes at their addresses, every other address as before. -/
theorem Memory.read_writeBytes {m : Memory} (hm : m.wf = true) (a : Nat) (bs : List Byte) (c : Nat) :
    (m.writeBytes a bs).read c = if a ≤ c ∧ c < a + bs.length then bs.getD (c - a) 0 else m.read c := by
  induction bs generalizing m a with
  | nil => simp [Memory.writeBytes]
  | cons b bs ih =>
    simp only [Memory.writeBytes, ih (Memory.wf_write hm a b), Memory.read_write hm, List.length_cons]
    by_cases h1 : c = a
    · subst h1; simp
    · by_cases h2 : a + 1 ≤ c ∧ c < a + 1 + bs.length
      · obtain ⟨k, rfl⟩ : ∃ k, c = a + 1 + k := ⟨c - (a + 1), by omega⟩
        rw [if_pos h2, if_pos (by omega), show a + 1 + k - a = k + 1 by omega, show a + 1 + k - (a + 1) = k by omega]
        rfl
      · rw [if_neg h2, if_neg h1, if_neg (by omega)]

/-- Outside the bytes a sequence of writes stores, every address reads as before. -/
theorem Memory.read_writeBytes_outside {m : Memory} (hm : m.wf = true) (a : Nat) (bs : List Byte) {c : Nat}
    (hc : ¬ (a ≤ c ∧ c < a + bs.length)) : (m.writeBytes a bs).read c = m.read c := by
  rw [Memory.read_writeBytes hm, if_neg hc]

@[simp] theorem Memory.readBytes_length (m : Memory) (a n : Nat) : (m.readBytes a n).length = n := by
  induction n generalizing a with
  | zero => rfl
  | succ n ih => simp [Memory.readBytes, ih]

theorem Memory.readBytes_getD (m : Memory) (a n k : Nat) (hk : k < n) : (m.readBytes a n).getD k 0 = m.read (a + k) := by
  induction n generalizing a k with
  | zero => omega
  | succ n ih =>
    cases k with
    | zero => rfl
    | succ k => simpa [Memory.readBytes, Nat.add_comm, Nat.add_left_comm] using ih (a + 1) k (by omega)

/-! ### The reserved region -/

theorem Memory.confined_cons (c : Host.Cell) (m : Memory) : Memory.confined (c :: m) = true ↔
    (Config.programStart ≤ c.1 ∧ c.1 < Config.memSize) ∧ Memory.confined m = true := by
  simp [Memory.confined]

theorem Memory.confined_insert {m : Memory} (hm : m.confined = true) {a : Nat} (h1 : Config.programStart ≤ a)
    (h2 : a < Config.memSize) (b : Byte) : (m.insert a b).confined = true := by
  induction m with
  | nil => simpa [Memory.insert, Memory.confined] using ⟨h1, h2⟩
  | cons c m ih =>
    rw [Memory.confined_cons] at hm
    simp only [Memory.insert]
    split
    · simp only [Memory.confined_cons]; exact ⟨⟨h1, h2⟩, hm⟩
    · split
      · simp only [Memory.confined_cons]; exact ⟨⟨h1, h2⟩, hm.2⟩
      · simp only [Memory.confined_cons]; exact ⟨hm.1, ih hm.2⟩

theorem Memory.confined_erase {m : Memory} (hm : m.confined = true) (a : Nat) : (m.erase a).confined = true := by
  induction m with
  | nil => rfl
  | cons c m ih =>
    rw [Memory.confined_cons] at hm
    simp only [Memory.erase]
    split
    · exact hm.2
    · rw [Memory.confined_cons]; exact ⟨hm.1, ih hm.2⟩

/-- A write into the writable region keeps memory confined to it. -/
theorem Memory.confined_write {m : Memory} (hm : m.confined = true) {a : Nat} (h1 : Config.programStart ≤ a)
    (h2 : a < Config.memSize) (b : Byte) : (m.write a b).confined = true := by
  unfold Memory.write
  split
  · exact Memory.confined_erase hm a
  · exact Memory.confined_insert hm h1 h2 b

theorem Memory.confined_writeBytes {m : Memory} (hm : m.confined = true) {a : Nat} (bs : List Byte)
    (h1 : Config.programStart ≤ a) (h2 : a + bs.length ≤ Config.memSize) : (m.writeBytes a bs).confined = true := by
  induction bs generalizing m a with
  | nil => exact hm
  | cons b bs ih =>
    simp only [List.length_cons] at h2
    exact ih (Memory.confined_write hm h1 (by omega) b) (by omega) (by omega)

/-- In a confined memory the reserved region, the font table with it, reads as after reset (R51, R54). -/
theorem Memory.read_reserved {m : Memory} (hm : m.confined = true) {a : Nat} (ha : a < Config.programStart) :
    m.read a = Memory.blank a := by
  induction m with
  | nil => rfl
  | cons c m ih =>
    rw [Memory.confined_cons] at hm
    have : c.1 ≠ a := by omega
    simp only [Memory.read, this, if_false]
    exact ih hm.2

/-! ### The checks of a range (R55) -/

/-- No address of the range fails: every one of them passes its check. -/
theorem firstFailing_eq_none {check : Nat → Option FaultKind} {a n : Nat} :
    firstFailing check a n = none ↔ ∀ k, k < n → check (a + k) = none := by
  induction n generalizing a with
  | zero => simp [firstFailing]
  | succ n ih =>
    simp only [firstFailing]
    cases h : check a with
    | some f =>
      simp only [reduceCtorEq, false_iff]
      intro hall
      have := hall 0 (by omega)
      simp [h] at this
    | none =>
      simp only [ih]
      constructor
      · intro hall k hk
        cases k with
        | zero => exact h
        | succ k => simpa [Nat.add_comm, Nat.add_left_comm] using hall k (by omega)
      · intro hall k hk
        simpa [Nat.add_comm, Nat.add_left_comm] using hall (k + 1) (by omega)

/-- The failing address is in the range, fails its check with that fault, and no lower address of the range fails. -/
theorem firstFailing_eq_some {check : Nat → Option FaultKind} {a n : Nat} {f : FaultKind} {b : Nat} :
    firstFailing check a n = some (f, b) ↔
      a ≤ b ∧ b < a + n ∧ check b = some f ∧ ∀ c, a ≤ c → c < b → check c = none := by
  induction n generalizing a with
  | zero => simp only [firstFailing, reduceCtorEq, false_iff]; omega
  | succ n ih =>
    simp only [firstFailing]
    cases h : check a with
    | some g =>
      simp only [Option.some.injEq, Prod.mk.injEq]
      constructor
      · rintro ⟨rfl, rfl⟩
        exact ⟨le_refl _, by omega, h, fun c h1 h2 => absurd h2 (by omega)⟩
      · rintro ⟨h1, -, h3, h4⟩
        by_cases hb : a = b
        · subst hb; rw [h] at h3; exact ⟨Option.some.inj h3, rfl⟩
        · have := h4 a (le_refl _) (by omega); rw [h] at this; cases this
    | none =>
      simp only [ih]
      constructor
      · rintro ⟨h1, h2, h3, h4⟩
        refine ⟨by omega, by omega, h3, fun c hc1 hc2 => ?_⟩
        by_cases hc : c = a
        · subst hc; exact h
        · exact h4 c (by omega) hc2
      · rintro ⟨h1, h2, h3, h4⟩
        have hb : a ≠ b := by rintro rfl; rw [h] at h3; cases h3
        exact ⟨by omega, by omega, h3, fun c hc1 hc2 => h4 c (by omega) hc2⟩

theorem readCheck_eq_none {a : Nat} : readCheck a = none ↔ a < Config.memSize := by
  unfold readCheck; split <;> simp <;> omega

theorem writeCheck_eq_none {a : Nat} :
    writeCheck a = none ↔ Config.programStart ≤ a ∧ a < Config.memSize := by
  unfold writeCheck; split
  · simp; omega
  · split <;> simp <;> omega

end Sys2Proof.Machine
end

