-- ==== Sys2Proof/Laws/Ops.lean ====
section
/-! SUPPORT. One specification lemma for each shared operation: the call stack, sequences of registers, the checked
access, the key operand and the least pressed key. -/

namespace Sys2Proof.Machine

/-! ### The call stack (R27) -/

/-- Push with a free slot: the address goes to `stack[sp]`, and there is one frame more. -/
theorem State.push_of_lt (s : State) (a : Addr) (h : s.sp.val < 16) :
    s.push a = some { s with stack := s.stack.set s.sp.val a h, sp := ⟨s.sp.val + 1, Nat.succ_lt_succ h⟩ } := by
  simp only [State.push, dif_pos h]

/-- Push with 16 frames in use. -/
theorem State.push_full (s : State) (a : Addr) (h : s.sp.val = 16) : s.push a = none := by
  simp only [State.push, h, Nat.lt_irrefl, dif_neg, not_false_eq_true]

/-- Everything a push can do. -/
theorem State.push_eq_some {s t : State} {a : Addr} (h : s.push a = some t) :
    s.sp.val < 16 ∧ t.sp.val = s.sp.val + 1 ∧ (∀ k, t.slot k = if k.val = s.sp.val then a else s.slot k) ∧
      t = { s with stack := t.stack, sp := t.sp } := by
  by_cases hs : s.sp.val < 16
  · rw [State.push_of_lt s a hs] at h
    cases h
    refine ⟨hs, rfl, fun k => ?_, rfl⟩
    simp only [State.slot, Vector.getElem_set, eq_comm]
  · rw [State.push, dif_neg hs] at h; cases h

/-- Pop with a frame in use: the newest address, and one frame less; the slots keep their values. -/
theorem State.pop_of_pos (s : State) (h : 0 < s.sp.val) :
    ∃ hk : s.sp.val - 1 < 16, s.pop = some (s.slot ⟨s.sp.val - 1, hk⟩,
      { s with sp := ⟨s.sp.val - 1, Nat.lt_succ_of_lt hk⟩ }) :=
  ⟨by have : s.sp.val < 17 := s.sp.isLt; omega, by simp only [State.pop, dif_pos h, State.slot]⟩

/-- Pop with no frame in use. -/
theorem State.pop_empty (s : State) (h : s.sp.val = 0) : s.pop = none := by
  simp only [State.pop, h, Nat.lt_irrefl, dif_neg, not_false_eq_true]

/-- Everything a pop can do. -/
theorem State.pop_eq_some {s t : State} {a : Addr} (h : s.pop = some (a, t)) :
    t.sp.val + 1 = s.sp.val ∧ (∀ k : Fin 16, k.val + 1 = s.sp.val → a = s.slot k) ∧ t = { s with sp := t.sp } := by
  by_cases hs : 0 < s.sp.val
  · obtain ⟨hk, e⟩ := State.pop_of_pos s hs
    rw [e] at h
    cases h
    refine ⟨by simp only; omega, fun k hk => ?_, rfl⟩
    congr 1; apply Fin.ext; simp only; omega
  · rw [State.pop_empty s (by omega)] at h; cases h

/-! ### Sequences of registers (R165, R166) -/

@[simp] theorem State.writeVs_i (s : State) (r : Nat) (bs : List Byte) : (s.writeVs r bs).i = s.i := by
  induction bs generalizing s r with
  | nil => rfl
  | cons b bs ih => simp only [State.writeVs]; split <;> simp [ih]

@[simp] theorem State.writeVs_pc (s : State) (r : Nat) (bs : List Byte) : (s.writeVs r bs).pc = s.pc := by
  induction bs generalizing s r with
  | nil => rfl
  | cons b bs ih => simp only [State.writeVs]; split <;> simp [ih]

@[simp] theorem State.writeVs_stack (s : State) (r : Nat) (bs : List Byte) : (s.writeVs r bs).stack = s.stack := by
  induction bs generalizing s r with
  | nil => rfl
  | cons b bs ih => simp only [State.writeVs]; split <;> simp [ih]

@[simp] theorem State.writeVs_sp (s : State) (r : Nat) (bs : List Byte) : (s.writeVs r bs).sp = s.sp := by
  induction bs generalizing s r with
  | nil => rfl
  | cons b bs ih => simp only [State.writeVs]; split <;> simp [ih]

@[simp] theorem State.writeVs_mem (s : State) (r : Nat) (bs : List Byte) : (s.writeVs r bs).mem = s.mem := by
  induction bs generalizing s r with
  | nil => rfl
  | cons b bs ih => simp only [State.writeVs]; split <;> simp [ih]

@[simp] theorem State.writeVs_disp (s : State) (r : Nat) (bs : List Byte) : (s.writeVs r bs).disp = s.disp := by
  induction bs generalizing s r with
  | nil => rfl
  | cons b bs ih => simp only [State.writeVs]; split <;> simp [ih]

@[simp] theorem State.writeVs_key (s : State) (r : Nat) (bs : List Byte) : (s.writeVs r bs).key = s.key := by
  induction bs generalizing s r with
  | nil => rfl
  | cons b bs ih => simp only [State.writeVs]; split <;> simp [ih]

@[simp] theorem State.writeVs_dt (s : State) (r : Nat) (bs : List Byte) : (s.writeVs r bs).dt = s.dt := by
  induction bs generalizing s r with
  | nil => rfl
  | cons b bs ih => simp only [State.writeVs]; split <;> simp [ih]

@[simp] theorem State.writeVs_st (s : State) (r : Nat) (bs : List Byte) : (s.writeVs r bs).st = s.st := by
  induction bs generalizing s r with
  | nil => rfl
  | cons b bs ih => simp only [State.writeVs]; split <;> simp [ih]

@[simp] theorem State.writeVs_mode (s : State) (r : Nat) (bs : List Byte) : (s.writeVs r bs).mode = s.mode := by
  induction bs generalizing s r with
  | nil => rfl
  | cons b bs ih => simp only [State.writeVs]; split <;> simp [ih]

@[simp] theorem State.writeVs_draws (s : State) (r : Nat) (bs : List Byte) : (s.writeVs r bs).draws = s.draws := by
  induction bs generalizing s r with
  | nil => rfl
  | cons b bs ih => simp only [State.writeVs]; split <;> simp [ih]

/-- The registers a sequence is written to hold its bytes, the others are as before. -/
theorem State.readV_writeVs (s : State) (r : Nat) (bs : List Byte) (h : r + bs.length ≤ 16) (q : Reg) :
    (s.writeVs r bs).readV q = if r ≤ q.val ∧ q.val < r + bs.length then bs.getD (q.val - r) 0 else s.readV q := by
  induction bs generalizing s r with
  | nil => simp [State.writeVs]
  | cons b bs ih =>
    simp only [List.length_cons] at h
    have hr : r < 16 := by omega
    simp only [State.writeVs, hr, dif_pos, ih (s.writeV ⟨r, hr⟩ b) (r + 1) (by omega), State.readV_writeV,
      List.length_cons]
    by_cases h1 : q = ⟨r, hr⟩
    · subst h1; simp
    · have h1' : q.val ≠ r := fun e => h1 (Fin.ext e)
      by_cases h2 : r + 1 ≤ q.val ∧ q.val < r + 1 + bs.length
      · obtain ⟨k, hk⟩ : ∃ k, q.val = r + 1 + k := ⟨q.val - (r + 1), by omega⟩
        rw [if_pos h2, if_pos (by omega), hk, show r + 1 + k - r = k + 1 by omega, show r + 1 + k - (r + 1) = k by omega]
        rfl
      · rw [if_neg h2, if_neg h1, if_neg (by omega)]

theorem State.readVs_length (s : State) (r n : Nat) (h : r + n ≤ 16) : (s.readVs r n).length = n := by
  induction n generalizing r with
  | zero => rfl
  | succ n ih => simp [State.readVs, show r < 16 by omega, ih (r + 1) (by omega)]

theorem State.readVs_getD (s : State) (r n k : Nat) (hk : k < n) (h : r + n ≤ 16) :
    (s.readVs r n).getD k 0 = s.readV ⟨r + k, by omega⟩ := by
  induction n generalizing r k with
  | zero => omega
  | succ n ih =>
    cases k with
    | zero => simp [State.readVs, show r < 16 by omega]
    | succ k =>
      have := ih (r + 1) k (by omega) (by omega)
      simp only [State.readVs, show r < 16 by omega, dif_pos, List.getD_cons_succ, this]
      congr 1; apply Fin.ext; simp only; omega

/-! ### The checked access (R55) -/

/-- All addresses pass: the instruction completes. -/
theorem checked_pass {check : Nat → Option FaultKind} {n : Nat} {ins : Instr} {s done : State}
    (h : ∀ k, k < n → check (s.i.toNat + k) = none) : checked check n ins s done = .next done := by
  simp only [checked, firstFailing_eq_none.mpr h]

/-- An address fails: the fault of the first one that does, and the state of the start of the step. -/
theorem checked_fail {check : Nat → Option FaultKind} {n : Nat} {ins : Instr} {s done : State} {f : FaultKind} {a : Nat}
    (h : firstFailing check s.i.toNat n = some (f, a)) :
    checked check n ins s done = raise s f (some (encode ins)) (some a) := by
  simp only [checked, h]

/-- Everything a checked access can do. -/
theorem checked_eq_next {check : Nat → Option FaultKind} {n : Nat} {ins : Instr} {s done t : State}
    (h : checked check n ins s done = .next t) :
    (t = done ∧ ∀ k, k < n → check (s.i.toNat + k) = none) ∨
      ∃ f a, firstFailing check s.i.toNat n = some (f, a) ∧ t = s.halt ⟨f, s.pc, some (encode ins), some a⟩ := by
  unfold checked at h
  split at h
  · next f a hf => exact .inr ⟨f, a, hf, by cases h; rfl⟩
  · next hf => exact .inl ⟨by cases h; rfl, firstFailing_eq_none.mp hf⟩

/-! ### Keys -/

theorem State.keyOperand_eq_none (s : State) (x : Reg) : s.keyOperand x = none ↔ 15 < (s.readV x).toNat := by
  unfold State.keyOperand; split <;> simp <;> omega

theorem State.keyOperand_eq_some (s : State) (x : Reg) (k : KeyIndex) :
    s.keyOperand x = some k ↔ (s.readV x).toNat = k.val := by
  have := k.isLt
  unfold State.keyOperand; split
  · simp [Fin.ext_iff]
  · simp; omega

theorem State.key_getD (s : State) (k : Nat) :
    s.key.toList.getD k false = if h : k < 16 then s.readKey ⟨k, h⟩ else false := by
  split
  · next h =>
    rw [List.getD_eq_getElem _ _ (by simpa using h)]
    simp [State.readKey]
  · next h => exact List.getD_eq_default _ _ (by simpa using h)

/-- The least pressed key: it is pressed and no lower one is (R97). -/
theorem State.leastKey_eq_some (s : State) (k : KeyIndex) :
    s.leastKey = some k ↔ s.readKey k = true ∧ ∀ j : KeyIndex, j < k → s.readKey j = false := by
  unfold State.leastKey
  constructor
  · intro h
    obtain ⟨a, ha, hb⟩ := Option.bind_eq_some_iff.mp h
    split at hb
    · next hlt =>
      cases hb
      have hp := List.find?_some ha
      rw [State.key_getD, dif_pos hlt] at hp
      refine ⟨hp, fun j hj => ?_⟩
      rw [List.find?_range_eq_some] at ha
      have := ha.2.2 j.val hj
      simpa [State.key_getD, State.readKey] using this
    · cases hb
  · rintro ⟨hk, hmin⟩
    have : (List.range 16).find? (fun k => s.key.toList.getD k false) = some k.val := by
      rw [List.find?_range_eq_some]
      refine ⟨by simpa [State.key_getD, State.readKey] using hk, by simp, fun j hj => ?_⟩
      have hj16 : j < 16 := by omega
      simpa [State.key_getD, State.readKey, hj16] using hmin ⟨j, hj16⟩ hj
    rw [this]; simp

theorem State.leastKey_eq_none (s : State) : s.leastKey = none ↔ ∀ k : KeyIndex, s.readKey k = false := by
  constructor
  · intro h k
    by_contra hk
    have hex : ∃ n, ∃ h : n < 16, s.readKey ⟨n, h⟩ = true := ⟨k.val, k.isLt, by simpa using hk⟩
    classical
    obtain ⟨hlt, hp⟩ := Nat.find_spec hex
    have : s.leastKey = some ⟨Nat.find hex, hlt⟩ := by
      rw [State.leastKey_eq_some]
      refine ⟨hp, fun j hj => ?_⟩
      have := Nat.find_min hex hj
      simpa using this
    rw [h] at this; cases this
  · intro h
    cases hl : s.leastKey with
    | none => rfl
    | some k => rw [State.leastKey_eq_some] at hl; rw [h k] at hl; exact absurd hl.1 (by simp)

end Sys2Proof.Machine
end

