-- ==== Sys2Proof/Laws/PerInstr.lean ====
section
/-! SUPPORT. Two statements about the instructions as syntax, one lemma for each constructor: every instruction is well
formed, and every instruction's word matches its own row of the opcode table. -/

namespace Sys2Proof.Laws

/-- Every operand fits its field (R71, R80). -/
def FitsItsFields.Statement (i : Instr) : Prop := i.wellFormed = true

/-- The word of the instruction matches the instruction's row of the opcode table (R75). -/
def MatchesItsRow.Statement (i : Instr) : Prop :=
  (opcodeTable.getD i.rowIndex ⟨"", 0, 0⟩).isMatch (encode i) = true

theorem reg_fits (x : Reg) : OperandKind.reg.accepts x.val = true := decide_eq_true x.isLt
theorem addr_fits (a : Addr12) : OperandKind.addr.accepts a.toNat = true := decide_eq_true a.isLt
theorem byte_fits (b : Byte) : OperandKind.byte.accepts b.toNat = true := decide_eq_true b.isLt
theorem nibble_fits (n : Nibble) : OperandKind.nibble.accepts n.toNat = true := decide_eq_true n.isLt

theorem fits_nil : operandsFit [] = true := rfl

/-- An operand list fits when its first operand and the others do. -/
theorem fits_cons {o : OperandKind × Nat} {os : List (OperandKind × Nat)} (h : o.1.accepts o.2 = true)
    (hs : operandsFit os = true) : operandsFit (o :: os) = true := by
  unfold operandsFit at hs ⊢; rw [List.all_cons, h, hs]; rfl

/-- A word whose masked bits are the row's bits matches the row. -/
theorem isMatch_of_mask {r : OpcodeRow} {w v : Word} (h : w &&& r.mask = v) (hv : v = r.bits) : r.isMatch w = true :=
  beq_iff_eq.mpr (h.trans hv)

theorem FitsItsFields.cls : FitsItsFields.Statement .cls :=
  fits_nil

theorem FitsItsFields.ret : FitsItsFields.Statement .ret :=
  fits_nil

theorem FitsItsFields.jp (nnn : Addr12) : FitsItsFields.Statement (.jp nnn) :=
  fits_cons (addr_fits nnn) fits_nil

theorem FitsItsFields.call (nnn : Addr12) : FitsItsFields.Statement (.call nnn) :=
  fits_cons (addr_fits nnn) fits_nil

theorem FitsItsFields.seImm (x : Reg) (nn : Byte) : FitsItsFields.Statement (.seImm x nn) :=
  fits_cons (reg_fits x) (fits_cons (byte_fits nn) fits_nil)

theorem FitsItsFields.sneImm (x : Reg) (nn : Byte) : FitsItsFields.Statement (.sneImm x nn) :=
  fits_cons (reg_fits x) (fits_cons (byte_fits nn) fits_nil)

theorem FitsItsFields.seReg (x : Reg) (y : Reg) : FitsItsFields.Statement (.seReg x y) :=
  fits_cons (reg_fits x) (fits_cons (reg_fits y) fits_nil)

theorem FitsItsFields.ldImm (x : Reg) (nn : Byte) : FitsItsFields.Statement (.ldImm x nn) :=
  fits_cons (reg_fits x) (fits_cons (byte_fits nn) fits_nil)

theorem FitsItsFields.addImm (x : Reg) (nn : Byte) : FitsItsFields.Statement (.addImm x nn) :=
  fits_cons (reg_fits x) (fits_cons (byte_fits nn) fits_nil)

theorem FitsItsFields.ldReg (x : Reg) (y : Reg) : FitsItsFields.Statement (.ldReg x y) :=
  fits_cons (reg_fits x) (fits_cons (reg_fits y) fits_nil)

theorem FitsItsFields.orReg (x : Reg) (y : Reg) : FitsItsFields.Statement (.orReg x y) :=
  fits_cons (reg_fits x) (fits_cons (reg_fits y) fits_nil)

theorem FitsItsFields.andReg (x : Reg) (y : Reg) : FitsItsFields.Statement (.andReg x y) :=
  fits_cons (reg_fits x) (fits_cons (reg_fits y) fits_nil)

theorem FitsItsFields.xorReg (x : Reg) (y : Reg) : FitsItsFields.Statement (.xorReg x y) :=
  fits_cons (reg_fits x) (fits_cons (reg_fits y) fits_nil)

theorem FitsItsFields.addReg (x : Reg) (y : Reg) : FitsItsFields.Statement (.addReg x y) :=
  fits_cons (reg_fits x) (fits_cons (reg_fits y) fits_nil)

theorem FitsItsFields.sub (x : Reg) (y : Reg) : FitsItsFields.Statement (.sub x y) :=
  fits_cons (reg_fits x) (fits_cons (reg_fits y) fits_nil)

theorem FitsItsFields.shr (x : Reg) (y : Reg) : FitsItsFields.Statement (.shr x y) :=
  fits_cons (reg_fits x) (fits_cons (reg_fits y) fits_nil)

theorem FitsItsFields.subn (x : Reg) (y : Reg) : FitsItsFields.Statement (.subn x y) :=
  fits_cons (reg_fits x) (fits_cons (reg_fits y) fits_nil)

theorem FitsItsFields.shl (x : Reg) (y : Reg) : FitsItsFields.Statement (.shl x y) :=
  fits_cons (reg_fits x) (fits_cons (reg_fits y) fits_nil)

theorem FitsItsFields.sneReg (x : Reg) (y : Reg) : FitsItsFields.Statement (.sneReg x y) :=
  fits_cons (reg_fits x) (fits_cons (reg_fits y) fits_nil)

theorem FitsItsFields.ldI (nnn : Addr12) : FitsItsFields.Statement (.ldI nnn) :=
  fits_cons (addr_fits nnn) fits_nil

theorem FitsItsFields.jpV0 (nnn : Addr12) : FitsItsFields.Statement (.jpV0 nnn) :=
  fits_cons (addr_fits nnn) fits_nil

theorem FitsItsFields.rnd (x : Reg) (nn : Byte) : FitsItsFields.Statement (.rnd x nn) :=
  fits_cons (reg_fits x) (fits_cons (byte_fits nn) fits_nil)

theorem FitsItsFields.drw (x : Reg) (y : Reg) (n : Nibble) : FitsItsFields.Statement (.drw x y n) :=
  fits_cons (reg_fits x) (fits_cons (reg_fits y) (fits_cons (nibble_fits n) fits_nil))

theorem FitsItsFields.skp (x : Reg) : FitsItsFields.Statement (.skp x) :=
  fits_cons (reg_fits x) fits_nil

theorem FitsItsFields.sknp (x : Reg) : FitsItsFields.Statement (.sknp x) :=
  fits_cons (reg_fits x) fits_nil

theorem FitsItsFields.ldVxDt (x : Reg) : FitsItsFields.Statement (.ldVxDt x) :=
  fits_cons (reg_fits x) fits_nil

theorem FitsItsFields.ldVxK (x : Reg) : FitsItsFields.Statement (.ldVxK x) :=
  fits_cons (reg_fits x) fits_nil

theorem FitsItsFields.ldDtVx (x : Reg) : FitsItsFields.Statement (.ldDtVx x) :=
  fits_cons (reg_fits x) fits_nil

theorem FitsItsFields.ldStVx (x : Reg) : FitsItsFields.Statement (.ldStVx x) :=
  fits_cons (reg_fits x) fits_nil

theorem FitsItsFields.addI (x : Reg) : FitsItsFields.Statement (.addI x) :=
  fits_cons (reg_fits x) fits_nil

theorem FitsItsFields.ldF (x : Reg) : FitsItsFields.Statement (.ldF x) :=
  fits_cons (reg_fits x) fits_nil

theorem FitsItsFields.ldB (x : Reg) : FitsItsFields.Statement (.ldB x) :=
  fits_cons (reg_fits x) fits_nil

theorem FitsItsFields.ldMemVx (x : Reg) : FitsItsFields.Statement (.ldMemVx x) :=
  fits_cons (reg_fits x) fits_nil

theorem FitsItsFields.ldVxMem (x : Reg) : FitsItsFields.Statement (.ldVxMem x) :=
  fits_cons (reg_fits x) fits_nil

theorem MatchesItsRow.cls : MatchesItsRow.Statement .cls :=
  rfl

theorem MatchesItsRow.ret : MatchesItsRow.Statement .ret :=
  rfl

theorem MatchesItsRow.jp (nnn : Addr12) : MatchesItsRow.Statement (.jp nnn) :=
  isMatch_of_mask (wordNNN_mask_op _ nnn) rfl

theorem MatchesItsRow.call (nnn : Addr12) : MatchesItsRow.Statement (.call nnn) :=
  isMatch_of_mask (wordNNN_mask_op _ nnn) rfl

theorem MatchesItsRow.seImm (x : Reg) (nn : Byte) : MatchesItsRow.Statement (.seImm x nn) :=
  isMatch_of_mask (wordXNN_mask_op _ x nn) rfl

theorem MatchesItsRow.sneImm (x : Reg) (nn : Byte) : MatchesItsRow.Statement (.sneImm x nn) :=
  isMatch_of_mask (wordXNN_mask_op _ x nn) rfl

theorem MatchesItsRow.seReg (x : Reg) (y : Reg) : MatchesItsRow.Statement (.seReg x y) :=
  isMatch_of_mask (wordXYN_mask_op_nibble _ x y _) rfl

theorem MatchesItsRow.ldImm (x : Reg) (nn : Byte) : MatchesItsRow.Statement (.ldImm x nn) :=
  isMatch_of_mask (wordXNN_mask_op _ x nn) rfl

theorem MatchesItsRow.addImm (x : Reg) (nn : Byte) : MatchesItsRow.Statement (.addImm x nn) :=
  isMatch_of_mask (wordXNN_mask_op _ x nn) rfl

theorem MatchesItsRow.ldReg (x : Reg) (y : Reg) : MatchesItsRow.Statement (.ldReg x y) :=
  isMatch_of_mask (wordXYN_mask_op_nibble _ x y _) rfl

theorem MatchesItsRow.orReg (x : Reg) (y : Reg) : MatchesItsRow.Statement (.orReg x y) :=
  isMatch_of_mask (wordXYN_mask_op_nibble _ x y _) rfl

theorem MatchesItsRow.andReg (x : Reg) (y : Reg) : MatchesItsRow.Statement (.andReg x y) :=
  isMatch_of_mask (wordXYN_mask_op_nibble _ x y _) rfl

theorem MatchesItsRow.xorReg (x : Reg) (y : Reg) : MatchesItsRow.Statement (.xorReg x y) :=
  isMatch_of_mask (wordXYN_mask_op_nibble _ x y _) rfl

theorem MatchesItsRow.addReg (x : Reg) (y : Reg) : MatchesItsRow.Statement (.addReg x y) :=
  isMatch_of_mask (wordXYN_mask_op_nibble _ x y _) rfl

theorem MatchesItsRow.sub (x : Reg) (y : Reg) : MatchesItsRow.Statement (.sub x y) :=
  isMatch_of_mask (wordXYN_mask_op_nibble _ x y _) rfl

theorem MatchesItsRow.shr (x : Reg) (y : Reg) : MatchesItsRow.Statement (.shr x y) :=
  isMatch_of_mask (wordXYN_mask_op_nibble _ x y _) rfl

theorem MatchesItsRow.subn (x : Reg) (y : Reg) : MatchesItsRow.Statement (.subn x y) :=
  isMatch_of_mask (wordXYN_mask_op_nibble _ x y _) rfl

theorem MatchesItsRow.shl (x : Reg) (y : Reg) : MatchesItsRow.Statement (.shl x y) :=
  isMatch_of_mask (wordXYN_mask_op_nibble _ x y _) rfl

theorem MatchesItsRow.sneReg (x : Reg) (y : Reg) : MatchesItsRow.Statement (.sneReg x y) :=
  isMatch_of_mask (wordXYN_mask_op_nibble _ x y _) rfl

theorem MatchesItsRow.ldI (nnn : Addr12) : MatchesItsRow.Statement (.ldI nnn) :=
  isMatch_of_mask (wordNNN_mask_op _ nnn) rfl

theorem MatchesItsRow.jpV0 (nnn : Addr12) : MatchesItsRow.Statement (.jpV0 nnn) :=
  isMatch_of_mask (wordNNN_mask_op _ nnn) rfl

theorem MatchesItsRow.rnd (x : Reg) (nn : Byte) : MatchesItsRow.Statement (.rnd x nn) :=
  isMatch_of_mask (wordXNN_mask_op _ x nn) rfl

theorem MatchesItsRow.drw (x : Reg) (y : Reg) (n : Nibble) : MatchesItsRow.Statement (.drw x y n) :=
  isMatch_of_mask (wordXYN_mask_op _ x y n) rfl

theorem MatchesItsRow.skp (x : Reg) : MatchesItsRow.Statement (.skp x) :=
  isMatch_of_mask (wordXNN_mask_op_byte _ x _) rfl

theorem MatchesItsRow.sknp (x : Reg) : MatchesItsRow.Statement (.sknp x) :=
  isMatch_of_mask (wordXNN_mask_op_byte _ x _) rfl

theorem MatchesItsRow.ldVxDt (x : Reg) : MatchesItsRow.Statement (.ldVxDt x) :=
  isMatch_of_mask (wordXNN_mask_op_byte _ x _) rfl

theorem MatchesItsRow.ldVxK (x : Reg) : MatchesItsRow.Statement (.ldVxK x) :=
  isMatch_of_mask (wordXNN_mask_op_byte _ x _) rfl

theorem MatchesItsRow.ldDtVx (x : Reg) : MatchesItsRow.Statement (.ldDtVx x) :=
  isMatch_of_mask (wordXNN_mask_op_byte _ x _) rfl

theorem MatchesItsRow.ldStVx (x : Reg) : MatchesItsRow.Statement (.ldStVx x) :=
  isMatch_of_mask (wordXNN_mask_op_byte _ x _) rfl

theorem MatchesItsRow.addI (x : Reg) : MatchesItsRow.Statement (.addI x) :=
  isMatch_of_mask (wordXNN_mask_op_byte _ x _) rfl

theorem MatchesItsRow.ldF (x : Reg) : MatchesItsRow.Statement (.ldF x) :=
  isMatch_of_mask (wordXNN_mask_op_byte _ x _) rfl

theorem MatchesItsRow.ldB (x : Reg) : MatchesItsRow.Statement (.ldB x) :=
  isMatch_of_mask (wordXNN_mask_op_byte _ x _) rfl

theorem MatchesItsRow.ldMemVx (x : Reg) : MatchesItsRow.Statement (.ldMemVx x) :=
  isMatch_of_mask (wordXNN_mask_op_byte _ x _) rfl

theorem MatchesItsRow.ldVxMem (x : Reg) : MatchesItsRow.Statement (.ldVxMem x) :=
  isMatch_of_mask (wordXNN_mask_op_byte _ x _) rfl

end Sys2Proof.Laws
end

