-- ==== Sys2Proof/Laws/Sprite.lean ====
section
/-! SUPPORT. The sprite unit: which cells a sprite touches, that it touches each at most once, and what a draw leaves in
every cell and reports as collision. -/

namespace Sys2Proof.Machine

/-! ### Cells -/

theorem Display.cell_setCell (d : Display) (x : Column) (y : Row) (b : Bool) (p : Column) (q : Row) :
    (d.setCell x y b).cell p q = if p = x ∧ q = y then b else d.cell p q := by
  simp only [Display.cell, Display.setCell, Vector.getElem_set]
  by_cases hy : q = y
  · subst hy
    simp only [if_true, Vector.getElem_set, and_true, Fin.ext_iff, eq_comm]
  · have : ¬ y.val = q.val := fun e => hy (Fin.ext e.symm)
    simp only [this, if_false, hy, and_false]

theorem Display.cell_toggle (d : Display) (x : Column) (y : Row) (p : Column) (q : Row) :
    (d.toggle x y).cell p q = (d.cell p q ^^ decide (p = x ∧ q = y)) := by
  rw [Display.toggle, Display.cell_setCell]
  by_cases h : p = x ∧ q = y
  · obtain ⟨rfl, rfl⟩ := h; simp
  · simp [h]

@[simp] theorem Display.cell_dark (x : Column) (y : Row) : Display.dark.cell x y = false := by
  simp only [Display.cell, Display.dark, Vector.getElem_replicate]

/-- Two displays with the same cells are equal. -/
theorem Display.ext_cells {d e : Display} (h : ∀ x y, d.cell x y = e.cell x y) : d = e := by
  apply Vector.ext; intro y hy
  apply Vector.ext; intro x hx
  exact h ⟨x, hx⟩ ⟨y, hy⟩

/-! ### The cells a sprite touches (R112) -/

theorem mem_rowCells {row : Byte} {x0 y : Nat} {p : Column × Row} :
    p ∈ rowCells row x0 y ↔ ∃ c, c < 8 ∧ spritePixel row c = true ∧ p = (wrapX (x0 + c), wrapY y) := by
  simp only [rowCells, List.mem_map, List.mem_filter, List.mem_range, and_assoc]
  exact exists_congr fun c => and_congr_right fun _ => and_congr_right fun _ => eq_comm

theorem mem_spriteCells {x0 y : Nat} {rows : List Byte} {p : Column × Row} :
    p ∈ spriteCells x0 y rows ↔ ∃ r c, r < rows.length ∧ c < 8 ∧ spritePixel (rows.getD r 0) c = true ∧
      p = (wrapX (x0 + c), wrapY (y + r)) := by
  induction rows generalizing y with
  | nil => simp [spriteCells]
  | cons row rows ih =>
    simp only [spriteCells, List.mem_append, mem_rowCells, ih, List.length_cons]
    constructor
    · rintro (⟨c, hc, hp, rfl⟩ | ⟨r, c, hr, hc, hp, rfl⟩)
      · exact ⟨0, c, by omega, hc, by simpa using hp, rfl⟩
      · exact ⟨r + 1, c, by omega, hc, by simpa using hp, by rw [show y + 1 + r = y + (r + 1) by omega]⟩
    · rintro ⟨r, c, hr, hc, hp, rfl⟩
      cases r with
      | zero => exact .inl ⟨c, hc, by simpa using hp, rfl⟩
      | succ r => exact .inr ⟨r, c, by omega, hc, by simpa using hp, by rw [show y + 1 + r = y + (r + 1) by omega]⟩

theorem wrapX_inj {a b c : Nat} (hb : b < 8) (hc : c < 8) (h : wrapX (a + b) = wrapX (a + c)) : b = c := by
  have : (a + b) % 64 = (a + c) % 64 := congrArg Fin.val h
  omega

theorem wrapY_inj {a b c : Nat} (hb : b < 32) (hc : c < 32) (h : wrapY (a + b) = wrapY (a + c)) : b = c := by
  have : (a + b) % 32 = (a + c) % 32 := congrArg Fin.val h
  omega

theorem nodup_rowCells (row : Byte) (x0 y : Nat) : (rowCells row x0 y).Nodup := by
  unfold rowCells
  refine List.Nodup.map_on ?_ (List.Nodup.filter _ List.nodup_range)
  intro b hb c hc h
  simp only [List.mem_filter, List.mem_range] at hb hc
  exact wrapX_inj hb.1 hc.1 (congrArg Prod.fst h)

/-- A sprite of at most 32 rows touches every cell at most once (R113). -/
theorem nodup_spriteCells (x0 y : Nat) (rows : List Byte) (h : rows.length ≤ 32) : (spriteCells x0 y rows).Nodup := by
  induction rows generalizing y with
  | nil => exact List.nodup_nil
  | cons row rows ih =>
    simp only [List.length_cons] at h
    refine List.nodup_append'.mpr ⟨nodup_rowCells row x0 y, ih (y + 1) (by omega), ?_⟩
    intro p hp hq
    obtain ⟨c, -, -, rfl⟩ := mem_rowCells.mp hp
    obtain ⟨r, c', hr, -, -, e⟩ := mem_spriteCells.mp hq
    have := wrapY_inj (a := y) (b := 0) (c := r + 1) (by omega) (by omega)
      (by simpa [Nat.add_assoc, Nat.add_comm 1 r] using congrArg Prod.snd e)
    omega

/-! ### The draw (R112) -/

theorem foldl_drawCell_cell (l : List (Column × Row)) (hl : l.Nodup) (d : Display) (b : Bool) (x : Column) (y : Row) :
    (l.foldl drawCell (d, b)).1.cell x y = (d.cell x y ^^ decide ((x, y) ∈ l)) := by
  induction l generalizing d b with
  | nil => simp
  | cons p l ih =>
    obtain ⟨hp, hl⟩ := List.nodup_cons.mp hl
    simp only [List.foldl_cons, drawCell, ih hl, Display.cell_toggle]
    by_cases h : (x, y) = p
    · subst h; simp [hp]
    · have h' : ¬ (x = p.1 ∧ y = p.2) := fun e => h (Prod.ext e.1 e.2)
      simp [h, h']

theorem foldl_drawCell_collision (l : List (Column × Row)) (hl : l.Nodup) (d : Display) (b : Bool) :
    (l.foldl drawCell (d, b)).2 = (b || l.any fun p => d.cell p.1 p.2) := by
  induction l generalizing d b with
  | nil => simp
  | cons p l ih =>
    obtain ⟨hp, hl⟩ := List.nodup_cons.mp hl
    simp only [List.foldl_cons, drawCell, ih hl, List.any_cons, Bool.or_assoc]
    congr 2
    rw [Bool.eq_iff_iff, List.any_eq_true, List.any_eq_true]
    refine exists_congr fun q => and_congr_right fun hq => ?_
    rw [Display.cell_toggle]
    have : ¬ (q.1 = p.1 ∧ q.2 = p.2) := by
      rintro ⟨e1, e2⟩; exact hp (Prod.ext e1 e2 ▸ hq)
    simp [this]

/-- What a draw leaves in a cell: the cell XOR whether the sprite touches it. -/
theorem drawSprite_cell (d : Display) (x0 y0 : Nat) (rows : List Byte) (h : rows.length ≤ 32) (x : Column) (y : Row) :
    (drawSprite d x0 y0 rows).1.cell x y = (d.cell x y ^^ decide ((x, y) ∈ spriteCells x0 y0 rows)) :=
  foldl_drawCell_cell _ (nodup_spriteCells x0 y0 rows h) d false x y

/-- What a draw reports: whether any cell the sprite touches was on. -/
theorem drawSprite_collision (d : Display) (x0 y0 : Nat) (rows : List Byte) (h : rows.length ≤ 32) :
    (drawSprite d x0 y0 rows).2 = (spriteCells x0 y0 rows).any fun p => d.cell p.1 p.2 := by
  rw [drawSprite, foldl_drawCell_collision _ (nodup_spriteCells x0 y0 rows h), Bool.false_or]

end Sys2Proof.Machine
end

