-- ==== Sys2Proof/Laws/Step.lean ====
section
/-! SUPPORT. What a step can do in each operating state (R90, R91, R97, R98), and the first failing address in closed
form (R55, R190). -/

namespace Sys2Proof.Machine

/-! ### One step by operating state -/

theorem step_of_running {s : State} (h : s.mode = .running) : step s = runningStep s := by
  simp only [step, h]

theorem step_of_awaitingKey {s : State} {x : Reg} (h : s.mode = .awaitingKey x) : step s = awaitKeyStep x s := by
  simp only [step, h]

theorem step_of_halted {s : State} {f : FaultRecord} (h : s.mode = .halted f) : step s = .next s := by
  simp only [step, h, haltedStep]

/-- Everything a step can do. -/
theorem step_eq_next {s t : State} (h : step s = .next t) :
    (s.mode = .running ∧ runningStep s = .next t) ∨
    (∃ x, s.mode = .awaitingKey x ∧ awaitKeyStep x s = .next t) ∨
    (∃ f, s.mode = .halted f ∧ t = s) := by
  cases hm : s.mode with
  | running => exact .inl ⟨rfl, by rw [← h, step_of_running hm]⟩
  | awaitingKey x => exact .inr (.inl ⟨x, rfl, by rw [← h, step_of_awaitingKey hm]⟩)
  | halted f =>
    rw [step_of_halted hm] at h
    cases h
    exact .inr (.inr ⟨f, rfl, rfl⟩)

/-! ### The fetch -/

theorem State.fetchWord_of_lt {s : State} (h : s.pc.toNat + 1 < 4096) :
    s.fetchWord = some (wordOfBytes (s.mem.read s.pc.toNat) (s.mem.read (s.pc.toNat + 1))) :=
  if_pos h

theorem State.fetchWord_of_le {s : State} (h : 4096 ≤ s.pc.toNat + 1) : s.fetchWord = none :=
  if_neg (Nat.not_lt.mpr h)

/-- Everything a step of a running machine can do: the fetch fails, the word is UNKNOWN, or the instruction runs. -/
theorem runningStep_eq_next {s t : State} (h : runningStep s = .next t) :
    (s.fetchWord = none ∧ t = s.halt ⟨.fetchOutOfBounds, s.pc, none, none⟩) ∨
    (∃ w, s.fetchWord = some w ∧ decodeWord w = none ∧ t = s.halt ⟨.unknownOpcode, s.pc, some w, none⟩) ∨
    (∃ w i, s.fetchWord = some w ∧ decodeWord w = some i ∧ exec i s = .next t) := by
  unfold runningStep at h
  split at h
  · next hw => cases h; exact .inl ⟨hw, rfl⟩
  · next w hw =>
    split at h
    · next hd => cases h; exact .inr (.inl ⟨w, hw, hd, rfl⟩)
    · next i hd => exact .inr (.inr ⟨w, i, hw, hd, h⟩)

/-! ### The step of a waiting machine -/

/-- Everything a step in AwaitingKey can do. -/
theorem awaitKeyStep_eq_next {x : Reg} {s t : State} (h : awaitKeyStep x s = .next t) :
    (∃ k : KeyIndex, s.leastKey = some k ∧ t = (s.writeV x (BitVec.ofNat 8 k.val)).setMode .running) ∨
    (s.leastKey = none ∧ t = s) := by
  unfold awaitKeyStep at h
  split at h
  · next k hk => cases h; exact .inl ⟨k, hk, rfl⟩
  · next hk => cases h; exact .inr ⟨hk, rfl⟩

/-! ### The first failing address in closed form -/

theorem firstFailing_readCheck (a n : Nat) :
    firstFailing readCheck a n = if 0 < n ∧ 4096 < a + n then some (.memoryOutOfBounds, max a 4096) else none := by
  split
  · rw [firstFailing_eq_some]
    refine ⟨by omega, by omega, by simp [readCheck], fun c _ hc => ?_⟩
    rw [readCheck_eq_none]
    simp only [Config.memSize]
    omega
  · rw [firstFailing_eq_none]
    intro k hk
    rw [readCheck_eq_none]
    simp only [Config.memSize]
    omega

theorem firstFailing_writeCheck (a n : Nat) :
    firstFailing writeCheck a n =
      if 0 < n ∧ a < 0x200 then some (.reservedWrite, a)
      else if 0 < n ∧ 4096 < a + n then some (.memoryOutOfBounds, max a 4096)
      else none := by
  split
  · next h =>
    rw [firstFailing_eq_some]
    refine ⟨Nat.le_refl a, by omega, ?_, fun c h1 h2 => by omega⟩
    simp [writeCheck, h.2, show ¬ 4096 ≤ a by omega]
  · split
    · rw [firstFailing_eq_some]
      refine ⟨by omega, by omega, by simp [writeCheck], fun c _ hc => ?_⟩
      rw [writeCheck_eq_none]
      simp only [Config.programStart, Config.memSize]
      omega
    · rw [firstFailing_eq_none]
      intro k hk
      rw [writeCheck_eq_none]
      simp only [Config.programStart, Config.memSize]
      omega

end Sys2Proof.Machine
end

