-- ==== Sys2Proof/Tests/Slice0.lean ====
section
/-! SUPPORT. Tests. Expected values come from the vectors of spec/95_test_vectors.md (named in each docstring), from the
encodings of spec/opcode_table.json and from the operand limits of R80. At the end, for every statement with
hypotheses, a witness that meets them. -/

namespace Sys2Proof.Tests

open Sys2Proof.Machine

/-! ### Helpers -/

/-- The construction state with the bytes of `words` from `0x200` on, high byte first. -/
def loaded (words : List Word) : State :=
  State.reset.setMem (Memory.writeBytes [] 0x200 (words.flatMap fun w => [highByte w, lowByte w]))

/-- The construction state with one word at `0x200`, then changed by `f`. -/
def start (w : Word) (f : State → State := id) : State := f (loaded [w])

/-- The step answers a next state that satisfies `p`. -/
def stepTo (s : State) (p : State → Bool) : Bool :=
  match step s with
  | .next t => p t
  | _ => false

/-- The step halts with the record and leaves `pc`. -/
def haltsWith (s : State) (f : FaultRecord) : Bool :=
  stepTo s fun t => t.mode == .halted f && t.pc == s.pc

/-- `stack[k]` becomes `a`. -/
def withSlot (k : Fin 16) (a : Addr) (s : State) : State := { s with stack := s.stack.set k.val a k.isLt }

/-- `sp` becomes `n`. -/
def withSp (n : Fin 17) (s : State) : State := { s with sp := n }

/-- Key `k` is pressed. -/
def pressing (k : KeyIndex) (s : State) : State := { s with key := s.key.set k.val true k.isLt }

/-- Bytes from `a` on. -/
def withBytes (a : Nat) (bs : List Byte) (s : State) : State := s.setMem (s.mem.writeBytes a bs)

/-- A cell is on. -/
def withCell (x : Column) (y : Row) (s : State) : State := s.setDisp (s.disp.setCell x y true)

/-! ### Well-formedness: an ill-formed number is refused by each check (R22, R80) -/

theorem test_address_operand_above_fff_is_refused :
    Addr12.ofOperand 0x1000 = none ∧ Addr12.ofOperand 0xFFF = some 0xFFF ∧ operandsFit [(.addr, 0x1000)] = false := by
  decide

theorem test_byte_operand_above_ff_is_refused :
    Byte.ofOperand 0x100 = none ∧ Byte.ofOperand 0xFF = some 0xFF ∧ operandsFit [(.reg, 1), (.byte, 0x100)] = false := by
  decide

theorem test_nibble_operand_above_f_is_refused :
    Nibble.ofOperand 0x10 = none ∧ Nibble.ofOperand 0xF = some 0xF ∧
      operandsFit [(.reg, 0), (.reg, 1), (.nibble, 0x10)] = false := by
  decide

theorem test_register_operand_above_15_is_refused :
    Reg.ofOperand 16 = none ∧ Reg.ofOperand 15 = some 15 ∧ operandsFit [(.reg, 16)] = false := by
  decide

/-! ### Decoding: the words are the `encoding` strings of spec/opcode_table.json with their fields filled in -/

theorem test_decode_display :
    decodeWord 0b0000000011100000 = some .cls ∧ decodeWord 0b1101111100100110 = some (.drw 0xF 0x2 0x6) := by
  decide

theorem test_decode_control :
    decodeWord 0b0000000011101110 = some .ret ∧ decodeWord 0b0001001100111011 = some (.jp 0x33B) ∧
    decodeWord 0b0010001101100000 = some (.call 0x360) ∧ decodeWord 0b1011010111010101 = some (.jpV0 0x5D5) := by
  decide

theorem test_decode_skips :
    decodeWord 0b0011011001001100 = some (.seImm 0x6 0x4C) ∧ decodeWord 0b0100101001001111 = some (.sneImm 0xA 0x4F) ∧
    decodeWord 0b0101001100100000 = some (.seReg 0x3 0x2) ∧ decodeWord 0b1001000100100000 = some (.sneReg 0x1 0x2) ∧
    decodeWord 0b1110000110011110 = some (.skp 0x1) ∧ decodeWord 0b1110011010100001 = some (.sknp 0x6) := by
  decide

theorem test_decode_loads_and_random :
    decodeWord 0b0110111101010101 = some (.ldImm 0xF 0x55) ∧ decodeWord 0b0111000101011000 = some (.addImm 0x1 0x58) ∧
    decodeWord 0b1100001101111111 = some (.rnd 0x3 0x7F) := by
  decide

theorem test_decode_register_group :
    decodeWord 0b1000011011000000 = some (.ldReg 0x6 0xC) ∧ decodeWord 0b1000101000100001 = some (.orReg 0xA 0x2) ∧
    decodeWord 0b1000001110010010 = some (.andReg 0x3 0x9) ∧ decodeWord 0b1000111101010011 = some (.xorReg 0xF 0x5) ∧
    decodeWord 0b1000000111000100 = some (.addReg 0x1 0xC) ∧ decodeWord 0b1000011000100101 = some (.sub 0x6 0x2) ∧
    decodeWord 0b1000101010010110 = some (.shr 0xA 0x9) ∧ decodeWord 0b1000001101010111 = some (.subn 0x3 0x5) ∧
    decodeWord 0b1000111111001110 = some (.shl 0xF 0xC) := by
  decide

theorem test_decode_index_and_memory :
    decodeWord 0b1010010110110000 = some (.ldI 0x5B0) ∧ decodeWord 0b1111011000011110 = some (.addI 0x6) ∧
    decodeWord 0b1111101000101001 = some (.ldF 0xA) ∧ decodeWord 0b1111001100110011 = some (.ldB 0x3) ∧
    decodeWord 0b1111111101010101 = some (.ldMemVx 0xF) ∧ decodeWord 0b1111000101100101 = some (.ldVxMem 0x1) := by
  decide

theorem test_decode_timers_and_keys :
    decodeWord 0b1111101000000111 = some (.ldVxDt 0xA) ∧ decodeWord 0b1111001100001010 = some (.ldVxK 0x3) ∧
    decodeWord 0b1111111100010101 = some (.ldDtVx 0xF) ∧ decodeWord 0b1111000100011000 = some (.ldStVx 0x1) := by
  decide

/-- FD5 to FD14 and L1.7. -/
theorem test_decode_unknown :
    [0x0000, 0x00E1, 0x0123, 0x9121, 0x8008, 0x800F, 0xE09F, 0xF000, 0xF075, 0xF0FF, 0x5121].map decodeWord =
      List.replicate 11 none := by
  decide

/-- R79: fewer than two bytes are no instruction; what follows the two bytes is left. -/
theorem test_decode_bytes :
    decodeBytes [0x12] = .error .truncated ∧ decodeBytes [0x51, 0x21, 0x00] = .error (.unknownOpcode 0x5121) ∧
    decodeBytes [0x6A, 0x42, 0x77] = .ok (.ldImm 0xA 0x42, [0x77]) := by
  refine ⟨rfl, rfl, rfl⟩

theorem test_decode_table_word :
    decodeTableWord 16 0xD015 = some (.drw 0 1 5) ∧ decodeTableWord 16 0x00EE = some .ret ∧
      decodeTableWord 16 0x5121 = none := by
  decide

/-! ### The step on the word placed after reset -/

theorem test_placed_word_is_run_first :
    stepTo (State.reset.withFetchWord 16 0x6A42) (fun t => t.readV 0xA == 0x42 && t.pc == 0x202) = true := by decide

theorem test_placed_word_runs_where_pc_cannot_fetch :
    stepTo ((State.reset.setPc 0xFFF).withFetchWord 16 0x1345) (fun t => t.pc == 0x345) = true := by decide

/-! ### Fetch, decode and the operating states -/

/-- FD1: an odd address is fetched, no alignment fault. -/
theorem test_fetch_odd :
    stepTo (withBytes 0x201 [0x6A, 0x42] (State.reset.setPc 0x201)) (fun t => t.readV 0xA == 0x42 && t.pc == 0x203) =
      true := by decide

/-- FD2: the last word of memory. -/
theorem test_fetch_last_word :
    stepTo (withBytes 0xFFE [0x6A, 0x42] (State.reset.setPc 0xFFE)) (fun t => t.readV 0xA == 0x42 && t.pc == 0x1000) =
      true := by decide

/-- FD3, FD4: no fetch across the end of memory, and no wrap of 16 bits. -/
theorem test_fetch_out_of_bounds :
    haltsWith (State.reset.setPc 0xFFF) ⟨.fetchOutOfBounds, 0xFFF, none, none⟩ = true ∧
    haltsWith (State.reset.setPc 0xFFFE) ⟨.fetchOutOfBounds, 0xFFFE, none, none⟩ = true := by decide

/-- FD5: with no program loaded the first step is an unknown opcode. -/
theorem test_reset_state_runs_into_an_unknown_word :
    haltsWith State.reset ⟨.unknownOpcode, 0x200, some 0x0000, none⟩ = true ∧ FaultKind.unknownOpcode.code = 4 := by
  decide

/-- HR1: a halted machine stays so. -/
theorem test_halted_step :
    haltsWith ((start 0x6A42).setMode (.halted ⟨.stackOverflow, 0x200, some 0x2300, none⟩))
      ⟨.stackOverflow, 0x200, some 0x2300, none⟩ = true := by decide

/-- TK8 to TK10: the least pressed key resumes, also into VF. -/
theorem test_resume_with_least_key :
    stepTo (pressing 4 (pressing 9 (State.reset.setMode (.awaitingKey 3))))
      (fun t => t.readV 3 == 4 && t.mode == .running && t.pc == 0x200) = true ∧
    stepTo (pressing 0xC (State.reset.setMode (.awaitingKey 0xF))) (fun t => t.readV 0xF == 0x0C) = true := by decide

/-- TK11: no key, no change. -/
theorem test_wait_goes_on :
    stepTo ((State.reset.setMode (.awaitingKey 3)).setDt 5) (fun t => t.mode == .awaitingKey 3 && t.dt == 5) = true := by
  decide

theorem test_step_reports :
    stepReport (start 0x6A42) = some .executed ∧ stepReport (start 0xF30A) = some .waiting ∧
    stepReport (pressing 2 (State.reset.setMode (.awaitingKey 3))) = some .resumed ∧
    stepReport (State.reset.setMode (.awaitingKey 3)) = some .waiting ∧
    stepReport (start 0x00EE) = some (.fault (.fatal ⟨.stackUnderflow, 0x200, some 0x00EE, none⟩)) := by decide

/-! ### Display -/

/-- DR1: all cells off, VF kept. -/
theorem test_cls :
    stepTo (start 0x00E0 fun s => (withCell 3 4 (withCell 63 31 s)).writeV 0xF 1)
      (fun t => !t.disp.cell 3 4 && !t.disp.cell 63 31 && t.readV 0xF == 1 && t.pc == 0x202) = true := by decide

/-- DR4: both coordinates wrap. -/
theorem test_drw_wraps :
    stepTo (start 0xD011 fun s => ((withBytes 0x300 [0xFF] s).setI 0x300 |>.writeV 0 60).writeV 1 33)
      (fun t => t.disp.cell 63 1 && t.disp.cell 0 1 && t.disp.cell 3 1 && !t.disp.cell 4 1 && t.readV 0xF == 0) =
      true := by decide

/-- DR6: a collision; bit 7 is the leftmost column. -/
theorem test_drw_collides :
    stepTo (start 0xD011 fun s => withCell 1 0 ((withBytes 0x300 [0xC0] s).setI 0x300))
      (fun t => t.disp.cell 0 0 && !t.disp.cell 1 0 && t.readV 0xF == 1) = true := by decide

/-- DR8: `X = 15`, the coordinate is the old VF. DR3: no row, no fault. -/
theorem test_drw_coordinate_in_vf_and_no_rows :
    stepTo (start 0xDF01 fun s => ((withBytes 0x300 [0x80] s).setI 0x300 |>.writeV 0xF 0xA).writeV 0 2)
      (fun t => t.disp.cell 10 2 && t.readV 0xF == 0) = true ∧
    stepTo (start 0xD010 fun s => (s.setI 0x1000).writeV 0xF 1) (fun t => t.readV 0xF == 0 && t.mode == .running) =
      true := by decide

/-- DR7: the first row outside memory is the data address, and nothing is drawn. -/
theorem test_drw_out_of_bounds :
    stepTo (start 0xD013 fun s => withCell 0 0 ((s.setI 0xFFE).writeV 0xF 7))
      (fun t => t.mode == .halted ⟨.memoryOutOfBounds, 0x200, some 0xD013, some 0x1000⟩ && t.disp.cell 0 0 &&
        t.readV 0xF == 7) = true := by decide

/-! ### Control transfer -/

/-- CT2, CT1. -/
theorem test_ret :
    stepTo (start 0x00EE fun s => withSp 1 (withSlot 0 0x322 s)) (fun t => t.pc == 0x322 && t.sp == 0) = true ∧
    haltsWith (start 0x00EE) ⟨.stackUnderflow, 0x200, some 0x00EE, none⟩ = true := by decide

/-- CT3. -/
theorem test_jp : stepTo (start 0x1234) (fun t => t.pc == 0x234) = true := by decide

/-- CT6, CT7: the address after the call is pushed. -/
theorem test_call :
    stepTo (start 0x2210) (fun t => t.pc == 0x210 && t.sp == 1 && t.slot 0 == 0x202) = true ∧
    stepTo (start 0x2300 (withSp 15)) (fun t => t.pc == 0x300 && t.sp == 16 && t.slot 15 == 0x202) = true := by decide

/-- CT8: the 17th frame. -/
theorem test_call_overflow :
    haltsWith (start 0x2300 (withSp 16)) ⟨.stackOverflow, 0x200, some 0x2300, none⟩ = true := by decide

/-- CT10, CT11: the offset is V0, and the sum is not masked. -/
theorem test_jp_v0 :
    stepTo (start 0xB3FF fun s => (s.writeV 0 1).writeV 3 9) (fun t => t.pc == 0x400) = true ∧
    stepTo (start 0xBFF0 fun s => s.writeV 0 0x20) (fun t => t.pc == 0x1010) = true := by decide

/-! ### Skips -/

/-- SK1, SK2. -/
theorem test_se_imm :
    stepTo (start 0x3310 fun s => s.writeV 3 0x10) (fun t => t.pc == 0x204) = true ∧
    stepTo (start 0x3311 fun s => s.writeV 3 0x10) (fun t => t.pc == 0x202) = true := by decide

/-- SK3, SK4. -/
theorem test_sne_imm :
    stepTo (start 0x4311 fun s => s.writeV 3 0x10) (fun t => t.pc == 0x204) = true ∧
    stepTo (start 0x4310 fun s => s.writeV 3 0x10) (fun t => t.pc == 0x202) = true := by decide

/-- SK5, SK7. -/
theorem test_skips_on_registers :
    stepTo (start 0x5120 fun s => (s.writeV 1 7).writeV 2 7) (fun t => t.pc == 0x204) = true ∧
    stepTo (start 0x9120 fun s => (s.writeV 1 7).writeV 2 8) (fun t => t.pc == 0x204) = true ∧
    stepTo (start 0x9110 fun s => s.writeV 1 9) (fun t => t.pc == 0x202) = true := by decide

/-- SK9, SK10, SK13. -/
theorem test_skp :
    stepTo (start 0xE59E fun s => pressing 0xA (s.writeV 5 0xA)) (fun t => t.pc == 0x204) = true ∧
    stepTo (start 0xE59E fun s => s.writeV 5 0xA) (fun t => t.pc == 0x202) = true ∧
    haltsWith (start 0xE59E fun s => s.writeV 5 0x10) ⟨.keyIndexOutOfRange, 0x200, some 0xE59E, none⟩ = true := by decide

/-- SK11, SK12, SK14. -/
theorem test_sknp :
    stepTo (start 0xE5A1 fun s => s.writeV 5 0xA) (fun t => t.pc == 0x204) = true ∧
    stepTo (start 0xE5A1 fun s => pressing 0xA (s.writeV 5 0xA)) (fun t => t.pc == 0x202) = true ∧
    haltsWith (start 0xE5A1 fun s => s.writeV 5 0xFF) ⟨.keyIndexOutOfRange, 0x200, some 0xE5A1, none⟩ = true := by decide

/-! ### Register loads and arithmetic: `V1` and `VF` before, the word, `V1` and `VF` after, with `V2` given -/

/-- One step of `w` from `V1 = a`, `V2 = b`, `VF = f` gives `V1 = a'`, `VF = f'` and the next address. -/
def aluTo (w : Word) (a b f a' f' : Byte) : Bool :=
  stepTo (start w fun s => ((s.writeV 1 a).writeV 2 b).writeV 0xF f)
    (fun t => t.readV 1 == a' && t.readV 0xF == f' && t.pc == 0x202)

/-- AL1, AL2. -/
theorem test_ld_imm : aluTo 0x6142 0 0 1 0x42 1 = true ∧ aluTo 0x6F42 0 0 1 0 0x42 = true := by decide

/-- AL3, AL4: no carry anywhere; VF as a destination. -/
theorem test_add_imm : aluTo 0x7101 0xFF 0 1 0 1 = true ∧ aluTo 0x7F01 0 0 0xFF 0 0 = true := by decide

/-- AL5. -/
theorem test_ld_reg : aluTo 0x8120 0 0x33 1 0x33 1 = true := by decide

/-- AL6. -/
theorem test_or : aluTo 0x8121 0x0F 0xF0 1 0xFF 1 = true := by decide

/-- AL7. -/
theorem test_and : aluTo 0x8122 0x3C 0x0F 1 0x0C 1 = true := by decide

/-- AL8, AL9. -/
theorem test_xor : aluTo 0x8123 0xFF 0x0F 1 0xF0 1 = true ∧ aluTo 0x8113 0x5A 0 1 0 1 = true := by decide

/-- AL11, AL12, AL13, AL15. -/
theorem test_add_reg :
    aluTo 0x8124 0xF0 0x0F 1 0xFF 0 = true ∧ aluTo 0x8124 0x80 0x80 0 0 1 = true ∧
    aluTo 0x8114 0x81 0 0 0x02 1 = true ∧ aluTo 0x81F4 0x10 0 1 0x11 0 = true := by decide

/-- AL14: `X = 15`, the flag remains. -/
theorem test_add_reg_into_vf : aluTo 0x8F14 0x01 0 0xFF 0x01 1 = true := by decide

/-- AL16, AL17, AL19. -/
theorem test_sub :
    aluTo 0x8125 0x04 0x05 1 0xFF 0 = true ∧ aluTo 0x8125 0x05 0x05 0 0 1 = true ∧
    aluTo 0x8F15 0x20 0 0x10 0x20 0 = true := by decide

/-- AL20, AL21 (Y is ignored), AL23. -/
theorem test_shr :
    aluTo 0x8106 0x05 0 0 0x02 1 = true ∧ aluTo 0x8126 0x80 0xFF 1 0x40 0 = true ∧
    aluTo 0x8F06 0 0 0x03 0 1 = true := by decide

/-- AL24, AL25, AL26. -/
theorem test_subn :
    aluTo 0x8127 0x05 0x04 1 0xFF 0 = true ∧ aluTo 0x8127 0x04 0x05 0 0x01 1 = true ∧
    aluTo 0x8F17 0x20 0 0x10 0x20 1 = true := by decide

/-- AL27, AL28, AL29. -/
theorem test_shl :
    aluTo 0x810E 0x81 0 0 0x02 1 = true ∧ aluTo 0x810E 0x7F 0 1 0xFE 0 = true ∧
    aluTo 0x8F0E 0 0 0x80 0 1 = true := by decide

/-- AL31: with mask 0 the result is 0 whatever is drawn, and the draw is taken. -/
theorem test_rnd_mask_zero :
    ∃ t : State, exec (.rnd 3 0) (State.reset.writeV 3 5) = .next t ∧ t.readV 3 = 0 ∧ t.draws = 1 ∧ t.pc = 0x202 :=
  ⟨_, rfl, by simp, rfl, rfl⟩

/-! ### Address register and memory -/

/-- ME1. -/
theorem test_ld_i : stepTo (start 0xA2F0) (fun t => t.i == 0x2F0) = true := by decide

/-- ME3: the sum wraps at 16 bits, no flag; ME4. -/
theorem test_add_i :
    stepTo (start 0xF41E fun s => (s.setI 0xFFFF).writeV 4 1) (fun t => t.i == 0 && t.readV 0xF == 0) = true ∧
    stepTo (start 0xF41E fun s => (s.setI 0xFFF).writeV 4 1) (fun t => t.i == 0x1000) = true := by decide

/-- ME5, ME7: no mask. -/
theorem test_ld_f :
    stepTo (start 0xF229 fun s => s.writeV 2 0xA) (fun t => t.i == 0x032) = true ∧
    stepTo (start 0xF229 fun s => s.writeV 2 0xFF) (fun t => t.i == 0x4FB) = true := by decide

/-- ME10: the last three bytes of memory. -/
theorem test_ld_b :
    stepTo (start 0xF033 fun s => (s.writeV 0 0xFF).setI 0xFFD)
      (fun t => t.mem.readBytes 0xFFD 3 == [2, 5, 5] && t.i == 0xFFD && t.mem.wf) = true := by decide

/-- ME11, ME12, ME13: the first failing address, and nothing written. -/
theorem test_ld_b_faults :
    haltsWith (start 0xF033 fun s => s.setI 0xFFE) ⟨.memoryOutOfBounds, 0x200, some 0xF033, some 0x1000⟩ = true ∧
    haltsWith (start 0xF033 fun s => s.setI 0x1FF) ⟨.reservedWrite, 0x200, some 0xF033, some 0x1FF⟩ = true ∧
    haltsWith (start 0xF033 fun s => s.setI 0xFFFF) ⟨.memoryOutOfBounds, 0x200, some 0xF033, some 0xFFFF⟩ = true := by
  decide

/-- ME15. -/
theorem test_ld_mem_vx :
    stepTo (start 0xFF55 fun s => ((s.writeV 0 0x11).writeV 0xF 0xEE).setI 0xFF0)
      (fun t => t.mem.read 0xFF0 == 0x11 && t.mem.read 0xFF1 == 0 && t.mem.read 0xFFF == 0xEE && t.i == 0xFF0) =
      true := by decide

/-- ME16, ME17. -/
theorem test_ld_mem_vx_faults :
    haltsWith (start 0xFF55 fun s => s.setI 0xFF1) ⟨.memoryOutOfBounds, 0x200, some 0xFF55, some 0x1000⟩ = true ∧
    haltsWith (start 0xF155 fun s => s.setI 0x1FF) ⟨.reservedWrite, 0x200, some 0xF155, some 0x1FF⟩ = true := by decide

/-- ME19: the font may be read; ME18: `I` is kept. -/
theorem test_ld_vx_mem :
    stepTo (start 0xF465) (fun t => t.readVs 0 6 == [0xF0, 0x90, 0x90, 0x90, 0xF0, 0x00]) = true ∧
    stepTo (start 0xF265 fun s => (withBytes 0x300 [1, 2, 3] s).setI 0x300)
      (fun t => t.readVs 0 3 == [1, 2, 3] && t.i == 0x300) = true := by decide

/-- ME20: nothing is loaded. -/
theorem test_ld_vx_mem_fault :
    stepTo (start 0xF165 fun s => (s.setI 0xFFF).writeV 0 9)
      (fun t => t.mode == .halted ⟨.memoryOutOfBounds, 0x200, some 0xF165, some 0x1000⟩ && t.readV 0 == 9) = true := by
  decide

/-! ### Timers and keys -/

/-- TK1. -/
theorem test_ld_vx_dt : stepTo (start 0xF507 fun s => s.setDt 0x3C) (fun t => t.readV 5 == 0x3C) = true := by decide

/-- TK2. -/
theorem test_ld_dt_vx : stepTo (start 0xF115 fun s => s.writeV 1 0x3C) (fun t => t.dt == 0x3C) = true := by decide

/-- TK4. -/
theorem test_ld_st_vx : stepTo (start 0xF118 fun s => s.setSt 5) (fun t => t.st == 0) = true := by decide

/-- TK7: the keys are not looked at in this step. -/
theorem test_ld_vx_k :
    stepTo (start 0xF30A (pressing 2)) (fun t => t.mode == .awaitingKey 3 && t.pc == 0x202 && t.readV 3 == 0) = true := by
  decide

/-- TK3, TK5: the event comes with the tick that takes the sound timer from 1 to 0. -/
theorem test_ticks :
    (State.reset.setSt 2).soundEvent = false ∧ ((State.reset.setSt 2).tickTimers.st = 1) ∧
    (State.reset.setSt 1).soundEvent = true ∧ ((State.reset.setSt 1).tickTimers.st = 0) ∧
    State.reset.soundEvent = false ∧ (State.reset.tickTimers.dt = 0) := by decide

/-- HR3, HR7: a reset leaves any mode; HR2: a key is set in a halted machine. -/
theorem test_reset_and_set_key :
    ((start 0x2300 (withSp 16)).setMode (.awaitingKey 3)).resetMachine.mode = .running ∧
    ((start 0x2300 (withSp 16)).setMode (.awaitingKey 3)).resetMachine.sp = 0 ∧
    (start 0x2300).resetMachine.mem.read 0x200 = 0 ∧
    ((State.reset.setKey 5 true).map fun t => t.readKey 5) = some true ∧ State.reset.setKey 16 true = none := by decide

/-- R203: the bytes of a program, from program-start on. -/
theorem test_load_program :
    ((State.reset.loadProgram [0x60, 0xFE, 0x22]).map fun t => t.mem.readBytes 0x200 4) = some [0x60, 0xFE, 0x22, 0] := by
  decide

/-! ### The construction state and the parameters -/

theorem test_reset_memory_is_canonical : State.reset.mem.wf = true := by decide

/-- R57: the first and the last glyph, and R43: zero after them. -/
theorem test_font_after_reset :
    State.reset.mem.readBytes 0 5 = [0xF0, 0x90, 0x90, 0x90, 0xF0] ∧
    State.reset.mem.readBytes 75 6 = [0xF0, 0x80, 0xF0, 0x80, 0x80, 0x00] := by decide

/-- R8: what the parameters must satisfy. -/
theorem test_parameters :
    Config.programStart + 2 ≤ Config.memSize ∧ Config.memSize ≤ 0xFFFE ∧ fontBase + 16 * glyphSize ≤ Config.programStart ∧
    1 ≤ Config.displayW ∧ 1 ≤ Config.displayH ∧ fontTable.length = 16 * glyphSize ∧
    (glyphsLow ++ glyphsHigh).all (fun g => g.length == glyphSize) = true := by decide

theorem test_core_is_the_machine : Sys2Proof.core.reset = State.reset ∧ Sys2Proof.core.step = step := ⟨rfl, rfl⟩

/-! ### Witnesses: the hypotheses of the statements are met, clause by clause -/

theorem test_witness_decode_statements :
    decodeWord 0x8F06 = some (.shr 0xF 0) ∧ decodeWord 0x5121 = none ∧
    (opcodeTable[15]? = some ⟨"SHR", 0x8006, 0xF00F⟩ ∧ OpcodeRow.isMatch ⟨"SHR", 0x8006, 0xF00F⟩ 0x8F06 = true) := by
  decide

theorem test_witness_step_executes :
    (start 0x6A42).mode = .running ∧ (start 0x6A42).pc.toNat + 1 < 4096 ∧
    (0x6A42 : Word).toNat = 256 * ((start 0x6A42).mem.read (start 0x6A42).pc.toNat).toNat +
      ((start 0x6A42).mem.read ((start 0x6A42).pc.toNat + 1)).toNat ∧
    decodeWord 0x6A42 = some (.ldImm 0xA 0x42) := by decide

theorem test_witness_fetch_outside : (State.reset.setPc 0xFFF).mode = .running ∧
    4096 ≤ (State.reset.setPc 0xFFF).pc.toNat + 1 := by decide

theorem test_witness_unknown_word :
    (start 0x5121).mode = .running ∧ (start 0x5121).pc.toNat + 1 < 4096 ∧
    (0x5121 : Word).toNat = 256 * ((start 0x5121).mem.read (start 0x5121).pc.toNat).toNat +
      ((start 0x5121).mem.read ((start 0x5121).pc.toNat + 1)).toNat ∧ decodeWord 0x5121 = none := by decide

/-- Waiting with key 15 the only one, and with none. -/
theorem test_witness_awaiting_key :
    ((pressing 15 (State.reset.setMode (.awaitingKey 3))).mode = .awaitingKey 3 ∧
      (pressing 15 (State.reset.setMode (.awaitingKey 3))).readKey 15 = true ∧
      ∀ j : KeyIndex, j < 15 → (pressing 15 (State.reset.setMode (.awaitingKey 3))).readKey j = false) ∧
    ((State.reset.setMode (.awaitingKey 3)).mode = .awaitingKey 3 ∧
      ∀ k : KeyIndex, (State.reset.setMode (.awaitingKey 3)).readKey k = false) := by decide

/-- A running machine with each of the fatal conditions, and with none. -/
theorem test_witness_fatal :
    (start 0x00EE).mode = .running ∧ (start 0x00EE).fatal = some ⟨.stackUnderflow, 0x200, some 0x00EE, none⟩ ∧
    (start 0x2300 (withSp 16)).fatal = some ⟨.stackOverflow, 0x200, some 0x2300, none⟩ ∧
    (State.reset.setPc 0xFFF).fatal = some ⟨.fetchOutOfBounds, 0xFFF, none, none⟩ ∧
    (start 0x5121).fatal = some ⟨.unknownOpcode, 0x200, some 0x5121, none⟩ ∧
    (start 0xF033 fun s => s.setI 0xFFE).fatal = some ⟨.memoryOutOfBounds, 0x200, some 0xF033, some 0x1000⟩ ∧
    (start 0xF033 fun s => s.setI 0x1FF).fatal = some ⟨.reservedWrite, 0x200, some 0xF033, some 0x1FF⟩ ∧
    (start 0xE59E fun s => s.writeV 5 0x10).fatal = some ⟨.keyIndexOutOfRange, 0x200, some 0xE59E, none⟩ ∧
    (start 0x6A42).fatal = none ∧ (start 0xF30A).fatal = none := by decide

/-- A step of a running machine that halts, and a halted machine. -/
theorem test_witness_halted :
    ∃ t : State, (start 0x00EE).mode = .running ∧ step (start 0x00EE) = .next t ∧
      t.mode = .halted ⟨.stackUnderflow, 0x200, some 0x00EE, none⟩ := ⟨_, rfl, rfl, rfl⟩

/-- Steps into each of the three operating states. -/
theorem test_witness_mode_changes :
    (∃ t : State, step (start 0xF30A) = .next t ∧ t.mode = .awaitingKey 3) ∧
    (∃ t : State, step (start 0x00EE) = .next t ∧ t.mode = .halted ⟨.stackUnderflow, 0x200, some 0x00EE, none⟩) ∧
    (∃ t : State, step (start 0x6A42) = .next t ∧ t.mode = .running) := ⟨⟨_, rfl, rfl⟩, ⟨_, rfl, rfl⟩, ⟨_, rfl, rfl⟩⟩

theorem test_witness_self_jump : (start 0x1200).atEnd := ⟨rfl, 0x200, by decide, by decide⟩

theorem test_witness_placed_word : State.reset.mem.wf = true ∧ decodeTableWord 16 0xD015 = some (.drw 0 1 5) := by decide

/-- The invariant in a running and in a halted state that has written memory. -/
theorem test_witness_invariant :
    Inv (start 0x00EE) ∧ Inv ((start 0x00EE).setMode (.halted ⟨.stackUnderflow, 0x200, some 0x00EE, none⟩)) ∧
    ∃ t : State, step (start 0x00EE) = .next t := by
  refine ⟨⟨by decide, by decide, fun f h => by cases h⟩, ⟨by decide, by decide, fun f h => ?_⟩, ⟨_, rfl⟩⟩
  cases h; exact ⟨rfl, by decide, by decide⟩

theorem test_witness_canonical_memories :
    Memory.wf (Memory.write [] 0x300 7) = true ∧ Memory.wf (Memory.write (Memory.write [] 0x300 9) 0x300 7) = true ∧
    ∀ a, Memory.read (Memory.write [] 0x300 7) a = Memory.read (Memory.write (Memory.write [] 0x300 9) 0x300 7) a := by
  refine ⟨by decide, by decide, fun a => ?_⟩
  rw [show Memory.write [] 0x300 7 = Memory.write (Memory.write [] 0x300 9) 0x300 7 by decide]

/-- No rows with `I` outside memory; the most rows that end with memory. -/
theorem test_witness_draw :
    ((0 : Nibble) = 0 ∨ (State.reset.setI 0x1000).i.toNat + (0 : Nibble).toNat ≤ 4096) ∧
    ((15 : Nibble) = 0 ∨ (State.reset.setI 0xFF1).i.toNat + (15 : Nibble).toNat ≤ 4096) := by decide

/-- DR2 and DR9: the glyph of 0 drawn twice on a clear display. -/
theorem test_witness_draw_twice :
    ∃ t u : State, (0 : Reg) ≠ 15 ∧ (1 : Reg) ≠ 15 ∧ ((5 : Nibble) = 0 ∨ State.reset.i.toNat + (5 : Nibble).toNat ≤ 4096) ∧
      exec (.drw 0 1 5) State.reset = .next t ∧ exec (.drw 0 1 5) t = .next u ∧
      (∀ cx cy, spriteCovers State.reset 0 1 5 cx cy = true → State.reset.disp.cell cx cy = false) ∧
      spriteCovers State.reset 0 1 5 0 0 = true :=
  ⟨_, _, by decide, by decide, by decide, rfl, rfl,
    fun cx cy _ => by simp [State.reset, Aggregate.reset, Display.cell], by decide⟩

/-- The stack with 0, 15 and 16 frames for a call, 1, 16 and 0 for a return. -/
theorem test_witness_stack :
    (State.reset.sp.val = (0 : Fin 16).val) ∧ ((withSp 15 State.reset).sp.val = (15 : Fin 16).val) ∧
    ((withSp 16 State.reset).sp.val = 16) ∧ ((withSp 1 State.reset).sp.val = (0 : Fin 16).val + 1) ∧
    ((withSp 16 State.reset).sp.val = (15 : Fin 16).val + 1) ∧ State.reset.sp.val = 0 := by decide

theorem test_witness_calls_then_returns :
    [(0x300 : Addr12), 0x400] ≠ [] ∧ (withSp 14 State.reset).sp.val + [(0x300 : Addr12), 0x400].length ≤ 16 := by decide

/-- A key index of 15 and one of 16. -/
theorem test_witness_key_state :
    ((State.reset.writeV 5 15).readV 5).toNat = (15 : KeyIndex).val ∧ 15 < ((State.reset.writeV 5 16).readV 5).toNat := by
  decide

/-- A destination other than VF; the statements hold for VF too. -/
theorem test_witness_destination : (1 : Reg) ≠ 15 := by decide

/-- Both ends of the writable region, for FX33, FX55 and FX65. -/
theorem test_witness_memory_instructions :
    State.reset.mem.wf = true ∧ (0x200 ≤ (State.reset.setI 0x200).i.toNat ∧ (State.reset.setI 0x200).i.toNat + 3 ≤ 4096) ∧
    (0x200 ≤ (State.reset.setI 0xFFD).i.toNat ∧ (State.reset.setI 0xFFD).i.toNat + 3 ≤ 4096) ∧
    (0x200 ≤ (State.reset.setI 0xFF0).i.toNat ∧ (State.reset.setI 0xFF0).i.toNat + (15 : Reg).val + 1 ≤ 4096) ∧
    State.reset.i.toNat + (15 : Reg).val + 1 ≤ 4096 := by decide

theorem test_witness_dump_then_load :
    ∃ t u : State, State.reset.mem.wf = true ∧ 0x200 ≤ (State.reset.setI 0x300).i.toNat ∧
      (State.reset.setI 0x300).i.toNat + (2 : Reg).val + 1 ≤ 4096 ∧
      exec (.ldMemVx 2) (State.reset.setI 0x300) = .next t ∧ u.mem = t.mem ∧ u.i = t.i ∧ u.readV 1 = 9 :=
  ⟨_, (State.reset.setI 0x300).writeV 1 9, by decide, by decide, by decide, rfl, by decide, rfl, by decide⟩

theorem test_witness_set_key : (15 : Nat) = (15 : KeyIndex).val ∧ 15 < 16 := by decide

/-- The longest program that fits and one byte more. -/
theorem test_witness_load_program :
    State.reset.mem.wf = true ∧ (List.replicate 3584 (0x60 : Byte)).length ≤ 3584 ∧
    3584 < (List.replicate 3585 (0x60 : Byte)).length := by
  refine ⟨by decide, by rw [List.length_replicate], by rw [List.length_replicate]; decide⟩

theorem test_witness_every_instruction_writes :
    ∃ t : State, State.reset.mem.wf = true ∧ exec (.ldImm 1 2) State.reset = .next t := ⟨_, by decide, rfl⟩

/-- Two different states that differ in an inactive slot, and a step of the first. -/
theorem test_witness_inactive_slots :
    ∃ t : State, SameButInactiveSlots State.reset (withSlot 0 5 State.reset) ∧ withSlot 0 5 State.reset ≠ State.reset ∧
      step State.reset = .next t :=
  ⟨_, ⟨rfl, fun k hk => absurd hk (Nat.not_lt_zero _)⟩,
    fun h => absurd (congrArg (fun s : State => s.slot 0) h) (by decide), rfl⟩

/-- Two different states that differ in the sound timer, and a step of the first. -/
theorem test_witness_sound_timer :
    ∃ t : State, SameButSt State.reset (State.reset.setSt 5) ∧ State.reset.setSt 5 ≠ State.reset ∧ step State.reset = .next t :=
  ⟨_, rfl, fun h => absurd (congrArg (fun s : State => s.st) h) (by decide), rfl⟩

/-- HR3 and HR7: after steps and draws, a reset gives the machine that `construct` gives. -/
theorem test_reset_gives_the_constructed_machine :
    ((start 0x2300 (withSp 16)).setMode (.awaitingKey 3)).drawn.resetMachine.toAggregate = Aggregate.reset := rfl

/-- Two different states with the same machine, and a step of the first that draws. -/
theorem test_witness_draws :
    ∃ t : State, (start 0xC3FF).drawn.toAggregate = (start 0xC3FF).toAggregate ∧ (start 0xC3FF).drawn ≠ start 0xC3FF ∧
      step (start 0xC3FF) = .next t ∧ decodeWord 0xC3FF = some (.rnd 3 0xFF) :=
  ⟨_, rfl, fun h => absurd (congrArg State.draws h) (by decide), rfl, by decide⟩

end Sys2Proof.Tests
end

namespace Sys2Proof.Machine

/-! ### Frames: how they compose, and the frame of each update used below -/

theorem Component.same_trans {s t u : State} {c : Component} (hst : c.same s t) (htu : c.same t u) : c.same s u := by
  cases c <;> exact Eq.trans htu hst

/-- One change after another touches what either of them touches. -/
theorem UnchangedExcept.trans {P Q : Component → Prop} {s t u : State} (hst : UnchangedExcept P s t)
    (htu : UnchangedExcept Q t u) : UnchangedExcept (fun c => P c ∨ Q c) s u :=
  fun c hc => Component.same_trans (hst c fun hP => hc (.inl hP)) (htu c fun hQ => hc (.inr hQ))

theorem State.advance_unchangedExcept (s : State) : UnchangedExcept (fun c => c = .pc) s s.advance := by
  intro c hc
  cases c with
  | pc => exact absurd rfl hc
  | _ => rfl

theorem State.setDisp_unchangedExcept (s : State) (d : Display) :
    UnchangedExcept (fun c => ∃ x y, c = .cell x y) s (s.setDisp d) := by
  intro c hc
  cases c with
  | cell x y => exact absurd ⟨x, y, rfl⟩ hc
  | _ => rfl

/-! ### 00E0 (R110) -/

theorem exec_cls (s : State) : exec .cls s = .next (s.advance.setDisp Display.dark) := rfl

/-- Settles O23: the new display is the dark one, and the frame is that of `advance` followed by that of `setDisp`. -/
theorem clearScreenTurnsEveryCellOff : Obligations.ClearScreenTurnsEveryCellOff := by
  intro s
  have hframe := s.advance_unchangedExcept.trans (s.advance.setDisp_unchangedExcept Display.dark)
  exact ⟨_, exec_cls s, Display.cell_dark, rfl, hframe⟩

end Sys2Proof.Machine

namespace Sys2Proof.Machine

/-! ### Writing `pc`: its frame, and the value of a 12-bit target -/

theorem State.setPc_unchangedExcept (s : State) (a : Addr) : UnchangedExcept (fun c => c = .pc) s (s.setPc a) := by
  intro c hc
  cases c with
  | pc => exact absurd rfl hc
  | _ => rfl

/-- Zero extension keeps the number (R72). -/
@[simp] theorem addrOperand_toNat (nnn : Addr12) : (addrOperand nnn).toNat = nnn.toNat :=
  BitVec.toNat_setWidth_of_le (by decide)

/-! ### 1NNN (R121) -/

/-- The jump overwrites the `pc` that `advance` moved, so no trace of `advance` is left. -/
theorem exec_jp (nnn : Addr12) (s : State) : exec (.jp nnn) s = .next (s.setPc (addrOperand nnn)) := rfl

/-- Settles O26: the next state is one write of `pc`, whose value is the zero-extended target. -/
theorem jumpSetsPcToItsTarget : Obligations.JumpSetsPcToItsTarget := by
  intro nnn s
  exact ⟨_, exec_jp nnn s, addrOperand_toNat nnn, s.setPc_unchangedExcept _⟩

end Sys2Proof.Machine

namespace Sys2Proof.Machine

/-! ### A conditional skip after the fetch's `advance` (R95): its `pc` and its frame -/

/-- The skip's 2 comes on top of the fetch's 2. -/
theorem State.advance_skipIf_pc (s : State) (taken : Bool) :
    (s.advance.skipIf taken).pc = if taken then s.pc + 4 else s.pc + 2 := by
  cases taken with
  | false => rfl
  | true => exact BitVec.add_assoc s.pc 2 2

/-- Taken or not, the skip only writes `pc` again. -/
theorem State.advance_skipIf_unchangedExcept (s : State) (taken : Bool) :
    UnchangedExcept (fun c => c = .pc) s (s.advance.skipIf taken) := by
  cases taken with
  | false => exact s.advance_unchangedExcept
  | true => exact s.setPc_unchangedExcept (s.pc + 2 + 2)

/-! ### 3XNN and 4XNN (R130, R131) -/

theorem exec_seImm (x : Reg) (nn : Byte) (s : State) :
    exec (.seImm x nn) s = .next (s.advance.skipIf (s.readV x == nn)) := rfl

theorem exec_sneImm (x : Reg) (nn : Byte) (s : State) :
    exec (.sneImm x nn) s = .next (s.advance.skipIf (s.readV x != nn)) := rfl

/-- Settles O31: both instructions are one skip after `advance`, on opposite conditions. -/
theorem skipOnImmediateComparison : Obligations.SkipOnImmediateComparison := by
  intro x nn s
  constructor
  · have hpc := s.advance_skipIf_pc (s.readV x == nn)
    simp only [beq_iff_eq] at hpc
    exact ⟨_, exec_seImm x nn s, hpc, s.advance_skipIf_unchangedExcept _⟩
  · have hpc := s.advance_skipIf_pc (s.readV x != nn)
    simp only [bne_iff_ne, ne_eq, ite_not] at hpc
    exact ⟨_, exec_sneImm x nn s, hpc, s.advance_skipIf_unchangedExcept _⟩

end Sys2Proof.Machine

namespace Sys2Proof.Machine

/-! ### Writing one register after the fetch's `advance` (R21, R95): its frame -/

theorem State.writeV_unchangedExcept (s : State) (x : Reg) (b : Byte) :
    UnchangedExcept (fun c => c = .v x) s (s.writeV x b) := by
  intro c hc
  cases c with
  | v r => exact s.readV_writeV_other x b r fun hr => hc (congrArg Component.v hr)
  | _ => rfl

theorem State.advance_writeV_unchangedExcept (s : State) (x : Reg) (b : Byte) :
    UnchangedExcept (fun c => c = .pc ∨ c = .v x) s (s.advance.writeV x b) :=
  s.advance_unchangedExcept.trans (s.advance.writeV_unchangedExcept x b)

/-! ### 6XNN, 7XNN and 8XY0 to 8XY3 (R141 to R146): the byte each writes, computed from the state before -/

theorem exec_ldImm (x : Reg) (nn : Byte) (s : State) : exec (.ldImm x nn) s = .next (s.advance.writeV x nn) := rfl

theorem exec_addImm (x : Reg) (nn : Byte) (s : State) :
    exec (.addImm x nn) s = .next (s.advance.writeV x (s.readV x + nn)) := rfl

theorem exec_ldReg (x y : Reg) (s : State) : exec (.ldReg x y) s = .next (s.advance.writeV x (s.readV y)) := rfl

theorem exec_orReg (x y : Reg) (s : State) :
    exec (.orReg x y) s = .next (s.advance.writeV x (s.readV x ||| s.readV y)) := rfl

theorem exec_andReg (x y : Reg) (s : State) :
    exec (.andReg x y) s = .next (s.advance.writeV x (s.readV x &&& s.readV y)) := rfl

theorem exec_xorReg (x y : Reg) (s : State) :
    exec (.xorReg x y) s = .next (s.advance.writeV x (s.readV x ^^^ s.readV y)) := rfl

/-- Settles O34: each load is one register write after `advance`, read back where it was written. -/
theorem loadImmediateAndCopyRegister : Obligations.LoadImmediateAndCopyRegister := by
  intro x y nn s
  constructor
  · exact ⟨_, exec_ldImm x nn s, State.readV_writeV_same .., rfl, s.advance_writeV_unchangedExcept x _⟩
  · exact ⟨_, exec_ldReg x y s, State.readV_writeV_same .., rfl, s.advance_writeV_unchangedExcept x _⟩

/-- Settles O35: the byte written is a sum of bytes, and the frame of the one register write keeps `VF`. -/
theorem addImmediateWrapsWithoutFlag : Obligations.AddImmediateWrapsWithoutFlag := by
  intro x nn s
  refine ⟨_, exec_addImm x nn s, ?sum, rfl, s.advance_writeV_unchangedExcept x _⟩
  case sum => rw [State.readV_writeV_same, BitVec.toNat_add]

/-- Settles O36: each operation writes one register, and the bits of the byte written are the library's bits of `|||`,
`&&&` and `^^^`. -/
theorem bitwiseOperationsActBitByBit : Obligations.BitwiseOperationsActBitByBit := by
  intro x y s
  refine ⟨⟨_, exec_orReg x y s, fun k => ?or, rfl, s.advance_writeV_unchangedExcept x _⟩,
    ⟨_, exec_andReg x y s, fun k => ?and, rfl, s.advance_writeV_unchangedExcept x _⟩,
    ⟨_, exec_xorReg x y s, fun k => ?xor, rfl, s.advance_writeV_unchangedExcept x _⟩⟩
  case or => rw [State.readV_writeV_same, BitVec.getLsbD_or]
  case and => rw [State.readV_writeV_same, BitVec.getLsbD_and]
  case xor => rw [State.readV_writeV_same, BitVec.getLsbD_xor]

end Sys2Proof.Machine

namespace Sys2Proof.Machine

/-! ### Writing `I` after the fetch's `advance` (R95): its frame -/

theorem State.setI_unchangedExcept (s : State) (a : Addr) : UnchangedExcept (fun c => c = .i) s (s.setI a) := by
  intro c hc
  cases c with
  | i => exact absurd rfl hc
  | _ => rfl

theorem State.advance_setI_unchangedExcept (s : State) (a : Addr) :
    UnchangedExcept (fun c => c = .pc ∨ c = .i) s (s.advance.setI a) :=
  s.advance_unchangedExcept.trans (s.advance.setI_unchangedExcept a)

/-! ### ANNN (R160) -/

theorem exec_ldI (nnn : Addr12) (s : State) : exec (.ldI nnn) s = .next (s.advance.setI (addrOperand nnn)) := rfl

/-- Settles O41: the next state is one write of `I` after `advance`, whose value is the zero-extended operand. -/
theorem loadAddressRegister : Obligations.LoadAddressRegister := by
  intro nnn s
  exact ⟨_, exec_ldI nnn s, addrOperand_toNat nnn, rfl, s.advance_setI_unchangedExcept _⟩

end Sys2Proof.Machine

namespace Sys2Proof.Machine

/-! ### `reset` (R201) -/

theorem transact_reset (s : State) : transact .reset s = .next (s.resetMachine, .done) := rfl

/-- A reset overwrites the whole machine, so of an earlier reset nothing is left to see. -/
@[simp] theorem State.resetMachine_resetMachine (s : State) : s.resetMachine.resetMachine = s.resetMachine := rfl

/-- Settles O58: both aggregates are `Aggregate.reset`, and the second reset is absorbed by the first. -/
theorem resetGivesTheConstructionState : Obligations.ResetGivesTheConstructionState := by
  intro s
  have haggregate : s.resetMachine.toAggregate = State.reset.toAggregate :=
    s.resetMachine_toAggregate.trans State.reset_toAggregate.symm
  have hagain : transact .reset s.resetMachine = .next (s.resetMachine, .done) := by
    rw [transact_reset, State.resetMachine_resetMachine]
  exact ⟨s.resetMachine, transact_reset s, haggregate, hagain⟩

end Sys2Proof.Machine

namespace Sys2Proof

/-! ### A word whose fields are known is the assembled word (R71, R75) -/

theorem wordNNN_of_op {w : Word} {op : Nibble} (hop : (opField w).toNat = op.toNat) :
    wordNNN op (nnnField w) = w := by
  rw [← BitVec.eq_of_toNat_eq hop, wordNNN_fields]

theorem wordXNN_of_op {w : Word} {op : Nibble} (hop : (opField w).toNat = op.toNat) :
    wordXNN op (xField w) (nnField w) = w := by
  rw [← BitVec.eq_of_toNat_eq hop, wordXNN_fields]

theorem wordXYN_of_op {w : Word} {op : Nibble} (hop : (opField w).toNat = op.toNat) :
    wordXYN op (xField w) (yField w) (nField w) = w := by
  rw [← BitVec.eq_of_toNat_eq hop, wordXYN_fields]

theorem wordXNN_of_op_byte {w : Word} {op : Nibble} {nn : Byte} (hop : (opField w).toNat = op.toNat)
    (hnn : nnField w = nn) : wordXNN op (xField w) nn = w := by
  rw [← hnn, wordXNN_of_op hop]

theorem wordXYN_of_op_nibble {w : Word} {op n : Nibble} (hop : (opField w).toNat = op.toNat)
    (hn : (nField w).toNat = n.toNat) : wordXYN op (xField w) (yField w) n = w := by
  rw [← BitVec.eq_of_toNat_eq hn, wordXYN_of_op hop]

/-! ### From the instruction to its word and back (R75, R76) -/

theorem decodeWord_encode (i : Instr) : decodeWord (encode i) = some i := by
  cases i with
  | cls | ret => rfl
  | jp | call | ldI | jpV0 => simp [encode, decodeWord]
  | seImm | sneImm | ldImm | addImm | rnd => simp [encode, decodeWord]
  | seReg | sneReg | drw => simp [encode, decodeWord]
  | ldReg | orReg | andReg | xorReg | addReg | sub | shr | subn | shl => simp [encode, decodeWord, decodeGroup8]
  | skp | sknp => simp [encode, decodeWord, decodeGroupE]
  | ldVxDt | ldVxK | ldDtVx | ldStVx | addI | ldF | ldB | ldMemVx | ldVxMem =>
    simp [encode, decodeWord, decodeGroupF]

theorem encode_of_decodeGroup0 {w : Word} {i : Instr} (h : decodeGroup0 w = some i) : encode i = w := by
  unfold decodeGroup0 at h
  split_ifs at h with hcls hret
  · cases h; exact hcls.symm
  · cases h; exact hret.symm

theorem encode_of_decodeGroup8 {w : Word} {i : Instr} (hop : (opField w).toNat = 0x8)
    (h : decodeGroup8 w = some i) : encode i = w := by
  unfold decodeGroup8 at h
  split at h
  case h_10 => cases h
  all_goals
    next hn => cases h; exact wordXYN_of_op_nibble hop hn

theorem encode_of_decodeGroupE {w : Word} {i : Instr} (hop : (opField w).toNat = 0xE)
    (h : decodeGroupE w = some i) : encode i = w := by
  unfold decodeGroupE at h
  split_ifs at h with hskp hsknp
  · cases h; exact wordXNN_of_op_byte hop hskp
  · cases h; exact wordXNN_of_op_byte hop hsknp

theorem encode_of_decodeGroupF {w : Word} {i : Instr} (hop : (opField w).toNat = 0xF)
    (h : decodeGroupF w = some i) : encode i = w := by
  unfold decodeGroupF at h
  split_ifs at h
  all_goals
    next hnn => cases h; exact wordXNN_of_op_byte hop hnn

theorem encode_of_decodeWord {w : Word} {i : Instr} (h : decodeWord w = some i) : encode i = w := by
  unfold decodeWord at h
  split at h
  case h_1 => exact encode_of_decodeGroup0 h
  case h_2 hop => cases h; exact wordNNN_of_op hop
  case h_3 hop => cases h; exact wordNNN_of_op hop
  case h_4 hop => cases h; exact wordXNN_of_op hop
  case h_5 hop => cases h; exact wordXNN_of_op hop
  case h_6 hop =>
    split at h
    · next hn => cases h; exact wordXYN_of_op_nibble hop (congrArg BitVec.toNat hn)
    · cases h
  case h_7 hop => cases h; exact wordXNN_of_op hop
  case h_8 hop => cases h; exact wordXNN_of_op hop
  case h_9 hop => exact encode_of_decodeGroup8 hop h
  case h_10 hop =>
    split at h
    · next hn => cases h; exact wordXYN_of_op_nibble hop (congrArg BitVec.toNat hn)
    · cases h
  case h_11 hop => cases h; exact wordNNN_of_op hop
  case h_12 hop => cases h; exact wordNNN_of_op hop
  case h_13 hop => cases h; exact wordXNN_of_op hop
  case h_14 hop => cases h; exact wordXYN_of_op hop
  case h_15 hop => exact encode_of_decodeGroupE hop h
  case h_16 hop => exact encode_of_decodeGroupF hop h
  case h_17 => cases h

/-- Settles O1: the two bytes are put together to the word again, and the word decodes to its instruction. -/
theorem encodedBytesDecodeToTheInstruction : Obligations.EncodedBytesDecodeToTheInstruction := by
  intro i rest
  simp only [encodeBytes, List.cons_append, List.nil_append, decodeBytes, wordOfBytes_bytes, decodeWord_encode]

/-- Settles O2, group by group of the decode function: the word is put together again from its fields. -/
theorem decodedInstructionEncodesToItsWord : Obligations.DecodedInstructionEncodesToItsWord :=
  fun _ _ => encode_of_decodeWord

end Sys2Proof

namespace Sys2Proof

/-! ### A matching row fixes fields of the word, by the row's mask (R75) -/

theorem opField_of_mask_op {w b : Word} (h : w &&& 0xF000 = b) : opField w = opField b := by
  rw [← h, ← wordNNN_fields w, wordNNN_mask_op, opField_wordNNN, opField_wordNNN]

theorem fields_of_mask_op_nibble {w b : Word} (h : w &&& 0xF00F = b) :
    opField w = opField b ∧ nField w = nField b := by
  rw [← h, ← wordXYN_fields w, wordXYN_mask_op_nibble]
  simp only [opField_wordXYN, nField_wordXYN, and_self]

theorem fields_of_mask_op_byte {w b : Word} (h : w &&& 0xF0FF = b) :
    opField w = opField b ∧ nnField w = nnField b := by
  rw [← h, ← wordXNN_fields w, wordXNN_mask_op_byte]
  simp only [opField_wordXNN, nnField_wordXNN, and_self]

/-! ### The row of the table a word decodes to -/

/-- The place in the opcode table of the row the decode function selects. -/
def decodedRow (w : Word) : Option Nat := (decodeWord w).map Instr.rowIndex

theorem decodedRow_eq_none {w : Word} : decodedRow w = none ↔ decodeWord w = none := Option.map_eq_none_iff

theorem Instr.rowIndex_lt (i : Instr) : i.rowIndex < 34 := by
  cases i <;> exact of_decide_eq_true rfl

theorem matchesItsRow (i : Instr) : Laws.MatchesItsRow.Statement i := by
  cases i with
  | cls => exact Laws.MatchesItsRow.cls
  | ret => exact Laws.MatchesItsRow.ret
  | jp nnn => exact Laws.MatchesItsRow.jp nnn
  | call nnn => exact Laws.MatchesItsRow.call nnn
  | seImm x nn => exact Laws.MatchesItsRow.seImm x nn
  | sneImm x nn => exact Laws.MatchesItsRow.sneImm x nn
  | seReg x y => exact Laws.MatchesItsRow.seReg x y
  | ldImm x nn => exact Laws.MatchesItsRow.ldImm x nn
  | addImm x nn => exact Laws.MatchesItsRow.addImm x nn
  | ldReg x y => exact Laws.MatchesItsRow.ldReg x y
  | orReg x y => exact Laws.MatchesItsRow.orReg x y
  | andReg x y => exact Laws.MatchesItsRow.andReg x y
  | xorReg x y => exact Laws.MatchesItsRow.xorReg x y
  | addReg x y => exact Laws.MatchesItsRow.addReg x y
  | sub x y => exact Laws.MatchesItsRow.sub x y
  | shr x y => exact Laws.MatchesItsRow.shr x y
  | subn x y => exact Laws.MatchesItsRow.subn x y
  | shl x y => exact Laws.MatchesItsRow.shl x y
  | sneReg x y => exact Laws.MatchesItsRow.sneReg x y
  | ldI nnn => exact Laws.MatchesItsRow.ldI nnn
  | jpV0 nnn => exact Laws.MatchesItsRow.jpV0 nnn
  | rnd x nn => exact Laws.MatchesItsRow.rnd x nn
  | drw x y n => exact Laws.MatchesItsRow.drw x y n
  | skp x => exact Laws.MatchesItsRow.skp x
  | sknp x => exact Laws.MatchesItsRow.sknp x
  | ldVxDt x => exact Laws.MatchesItsRow.ldVxDt x
  | ldVxK x => exact Laws.MatchesItsRow.ldVxK x
  | ldDtVx x => exact Laws.MatchesItsRow.ldDtVx x
  | ldStVx x => exact Laws.MatchesItsRow.ldStVx x
  | addI x => exact Laws.MatchesItsRow.addI x
  | ldF x => exact Laws.MatchesItsRow.ldF x
  | ldB x => exact Laws.MatchesItsRow.ldB x
  | ldMemVx x => exact Laws.MatchesItsRow.ldMemVx x
  | ldVxMem x => exact Laws.MatchesItsRow.ldVxMem x

/-- The word of every instruction matches the instruction's own row. -/
theorem isMatch_encode (i : Instr) : ∃ r, opcodeTable[i.rowIndex]? = some r ∧ r.isMatch (encode i) = true := by
  have hlt : i.rowIndex < opcodeTable.length := i.rowIndex_lt
  have hmatch := matchesItsRow i
  rw [Laws.MatchesItsRow.Statement, List.getD_eq_getElem _ _ hlt] at hmatch
  exact ⟨opcodeTable[i.rowIndex], List.getElem?_eq_getElem hlt, hmatch⟩

/-! ### The row selected depends only on the fields the group's rows keep (R73, R75, R76) -/

theorem decodedRow_congr_op {w b : Word} (hop : opField w = opField b)
    (hb : (opField b).toNat ∈ [0x1, 0x2, 0x3, 0x4, 0x6, 0x7, 0xA, 0xB, 0xC, 0xD]) : decodedRow w = decodedRow b := by
  simp only [List.mem_cons, List.not_mem_nil, or_false] at hb
  obtain h | h | h | h | h | h | h | h | h | h := hb <;> simp [decodedRow, decodeWord, hop, h, Instr.rowIndex]

theorem decodedRow_congr_op_nibble {w b : Word} (hop : opField w = opField b) (hn : nField w = nField b)
    (hb : (opField b).toNat ∈ [0x5, 0x8, 0x9]) : decodedRow w = decodedRow b := by
  simp only [List.mem_cons, List.not_mem_nil, or_false] at hb
  obtain h | h | h := hb
  case inl | inr.inr => simp only [decodedRow, decodeWord, hop, h, hn]; split <;> rfl
  case inr.inl => simp only [decodedRow, decodeWord, decodeGroup8, hop, h, hn]; split <;> rfl

theorem decodedRow_congr_op_byte {w b : Word} (hop : opField w = opField b) (hnn : nnField w = nnField b)
    (hb : (opField b).toNat ∈ [0xE, 0xF]) : decodedRow w = decodedRow b := by
  simp only [List.mem_cons, List.not_mem_nil, or_false] at hb
  obtain h | h := hb
  · simp only [decodedRow, decodeWord, decodeGroupE, hop, h, hnn]; split_ifs <;> rfl
  · simp only [decodedRow, decodeWord, decodeGroupF, hop, h, hnn]; split_ifs <;> rfl

/-- The mask of a row goes with its leading nibble. -/
theorem opcodeTable_masks : ∀ r ∈ opcodeTable, r.mask = 0xFFFF ∨
    (r.mask = 0xF000 ∧ (opField r.bits).toNat ∈ [0x1, 0x2, 0x3, 0x4, 0x6, 0x7, 0xA, 0xB, 0xC, 0xD]) ∨
    (r.mask = 0xF00F ∧ (opField r.bits).toNat ∈ [0x5, 0x8, 0x9]) ∨
    (r.mask = 0xF0FF ∧ (opField r.bits).toNat ∈ [0xE, 0xF]) := by
  decide

theorem decodedRow_of_isMatch {r : OpcodeRow} (hr : r ∈ opcodeTable) {w : Word} (hw : r.isMatch w = true) :
    decodedRow w = decodedRow r.bits := by
  have hbits : w &&& r.mask = r.bits := beq_iff_eq.mp hw
  obtain hm | ⟨hm, hop⟩ | ⟨hm, hop⟩ | ⟨hm, hop⟩ := opcodeTable_masks r hr
  · rw [← hbits, hm, show w &&& 0xFFFF = w from and_full w]
  · exact decodedRow_congr_op (opField_of_mask_op (hm ▸ hbits)) hop
  · have hf := fields_of_mask_op_nibble (hm ▸ hbits)
    exact decodedRow_congr_op_nibble hf.1 hf.2 hop
  · have hf := fields_of_mask_op_byte (hm ▸ hbits)
    exact decodedRow_congr_op_byte hf.1 hf.2 hop

theorem opcodeTable_map_decodedRow : opcodeTable.map (fun r => decodedRow r.bits) = (List.range 34).map some := by
  decide

/-- A word that matches a row is decoded to that row, wherever in the table the row stands. -/
theorem decodedRow_of_isMatch_at {j : Nat} {r : OpcodeRow} (hr : opcodeTable[j]? = some r) {w : Word}
    (hw : r.isMatch w = true) : decodedRow w = some j := by
  have hj : j < 34 := (List.getElem?_eq_some_iff.mp hr).1
  have hrow := congrArg (·[j]?) opcodeTable_map_decodedRow
  simp only [List.getElem?_map, hr, Option.map_some, List.getElem?_range hj, Option.some.injEq] at hrow
  rw [decodedRow_of_isMatch (List.mem_of_getElem? hr) hw, hrow]

/-- Settles O3: a word that decodes is its instruction's word and so matches its row, and a word that matches a row
decodes to that row. -/
theorem decodeSelectsTheMatchingTableRow : Obligations.DecodeSelectsTheMatchingTableRow := by
  intro w
  have hsome : ∀ i, decodeWord w = some i → ∃ r, opcodeTable[i.rowIndex]? = some r ∧ r.isMatch w = true :=
    fun i hi => encode_of_decodeWord hi ▸ isMatch_encode i
  refine ⟨hsome, fun hnone r hr => ?_, fun hall => ?_⟩
  · obtain ⟨j, hj⟩ := List.mem_iff_getElem?.mp hr
    rw [← decodedRow_eq_none] at hnone
    by_contra hw
    have := decodedRow_of_isMatch_at hj (Bool.eq_true_of_not_eq_false hw)
    rw [hnone] at this; cases this
  · by_contra hne
    obtain ⟨i, hi⟩ := Option.ne_none_iff_exists'.mp hne
    obtain ⟨r, hr, hw⟩ := hsome i hi
    rw [hall r (List.mem_of_getElem? hr)] at hw; cases hw

/-- Settles O4: each of the two rows is the one the word decodes to. -/
theorem noWordMatchesTwoTableRows : Obligations.NoWordMatchesTwoTableRows := by
  intro w j k p q hp hq hwp hwq
  have hj := decodedRow_of_isMatch_at hp hwp
  have hk := decodedRow_of_isMatch_at hq hwq
  exact Option.some.inj (hj.symm.trans hk)

/-! ### The illegal words (R77) -/

theorem decodeGroup0_eq_none {w : Word} : decodeGroup0 w = none ↔ w ≠ 0x00E0 ∧ w ≠ 0x00EE := by
  unfold decodeGroup0
  split_ifs with hcls hret
  · simp [hcls]
  · simp [hret]
  · exact iff_of_true rfl ⟨hcls, hret⟩

theorem decodeGroup8_eq_none {w : Word} :
    decodeGroup8 w = none ↔ w.toNat % 16 ∈ [0x8, 0x9, 0xA, 0xB, 0xC, 0xD, 0xF] := by
  unfold decodeGroup8
  rw [nField_toNat]
  have hlt : w.toNat % 16 < 16 := Nat.mod_lt _ (by decide)
  generalize w.toNat % 16 = n at hlt ⊢
  interval_cases n <;> simp

theorem nnField_eq_iff {w : Word} {nn : Byte} : nnField w = nn ↔ w.toNat % 256 = nn.toNat := by
  rw [← BitVec.toNat_inj, nnField_toNat]

theorem decodeGroupE_eq_none {w : Word} : decodeGroupE w = none ↔ w.toNat % 256 ∉ [0x9E, 0xA1] := by
  unfold decodeGroupE
  simp only [nnField_eq_iff]
  split_ifs <;> simp_all

theorem decodeGroupF_eq_none {w : Word} :
    decodeGroupF w = none ↔ w.toNat % 256 ∉ [0x07, 0x0A, 0x15, 0x18, 0x1E, 0x29, 0x33, 0x55, 0x65] := by
  unfold decodeGroupF
  simp only [nnField_eq_iff]
  split_ifs <;> simp_all

theorem nField_eq_iff {w : Word} {n : Nibble} : nField w = n ↔ w.toNat % 16 = n.toNat := by
  rw [← BitVec.toNat_inj, nField_toNat]

/-- Settles O5, group by group of the decode function, the groups told apart by the leading nibble. -/
theorem illegalWordsAreExactlyThoseListed : Obligations.IllegalWordsAreExactlyThoseListed := by
  intro w
  unfold decodeWord
  rw [opField_toNat]
  have hlt : w.toNat / 4096 < 16 := by omega
  generalize w.toNat / 4096 = op at hlt ⊢
  match op, hlt with
  | 0x0, _ => simp [decodeGroup0_eq_none]
  | 0x5, _ | 0x9, _ => simp [nField_eq_iff]
  | 0x8, _ => simp [decodeGroup8_eq_none]
  | 0xE, _ => simp [decodeGroupE_eq_none]
  | 0xF, _ => simp [decodeGroupF_eq_none]
  | 0x1, _ | 0x2, _ | 0x3, _ | 0x4, _ | 0x6, _ | 0x7, _ | 0xA, _ | 0xB, _ | 0xC, _ | 0xD, _ => simp
  | k + 16, hge => exact absurd hge (by omega)

/-- Settles O6: each word is evaluated. -/
theorem writtenOutWordsDecodeRight : Obligations.WrittenOutWordsDecodeRight := by
  refine ⟨?_, ?_, ?_, ?_, ?_, ?_, ?_, ?_, ?_, ?_, ?_, ?_⟩ <;> decide

end Sys2Proof

namespace Sys2Proof.Machine

/-! ### Frames of the remaining updates (R21 to R33) -/

theorem UnchangedExcept.mono {P Q : Component → Prop} {s t : State} (h : UnchangedExcept P s t)
    (hPQ : ∀ c, P c → Q c) : UnchangedExcept Q s t :=
  fun c hc => h c fun hP => hc (hPQ c hP)

theorem State.setDt_unchangedExcept (s : State) (b : Byte) : UnchangedExcept (fun c => c = .dt) s (s.setDt b) := by
  intro c hc
  cases c with
  | dt => exact absurd rfl hc
  | _ => rfl

theorem State.setSt_unchangedExcept (s : State) (b : Byte) : UnchangedExcept (fun c => c = .st) s (s.setSt b) := by
  intro c hc
  cases c with
  | st => exact absurd rfl hc
  | _ => rfl

theorem State.setMode_unchangedExcept (s : State) (m : Mode) :
    UnchangedExcept (fun c => c = .mode) s (s.setMode m) := by
  intro c hc
  cases c with
  | mode => exact absurd rfl hc
  | _ => rfl

theorem State.drawn_unchangedExcept (s : State) : UnchangedExcept (fun c => c = .draws) s s.drawn := by
  intro c hc
  cases c with
  | draws => exact absurd rfl hc
  | _ => rfl

theorem State.writeWithFlag_unchangedExcept (s : State) (x : Reg) (b : Byte) (flag : Bool) :
    UnchangedExcept (fun c => c = .v x ∨ c = .v 15) s (s.writeWithFlag x b flag) :=
  (s.writeV_unchangedExcept x b).trans ((s.writeV x b).writeV_unchangedExcept Config.vf (flagByte flag))

theorem State.advance_writeWithFlag_unchangedExcept (s : State) (x : Reg) (b : Byte) (flag : Bool) :
    UnchangedExcept (fun c => c = .pc ∨ c = .v x ∨ c = .v 15) s (s.advance.writeWithFlag x b flag) :=
  s.advance_unchangedExcept.trans (s.advance.writeWithFlag_unchangedExcept x b flag)

/-- Storing a sequence of bytes touches their addresses only; in a memory out of canonical form a write may uncover
another listed byte. -/
theorem State.setMem_writeBytes_unchangedExcept {s : State} (hm : s.mem.wf = true) (a : Nat) (bs : List Byte) :
    UnchangedExcept (fun c => ∃ b, a ≤ b ∧ b < a + bs.length ∧ c = .byte b) s (s.setMem (s.mem.writeBytes a bs)) := by
  intro c hc
  cases c with
  | byte b => exact Memory.read_writeBytes_outside hm a bs fun hb => hc ⟨b, hb.1, hb.2, rfl⟩
  | _ => rfl

theorem State.writeVs_unchangedExcept (s : State) (n : Nat) (bs : List Byte) (h : n + bs.length ≤ 16) :
    UnchangedExcept (fun c => ∃ r : Reg, n ≤ r.val ∧ r.val < n + bs.length ∧ c = .v r) s (s.writeVs n bs) := by
  intro c hc
  cases c with
  | v r => exact (s.readV_writeVs n bs h r).trans (if_neg fun hr => hc ⟨r, hr.1, hr.2, rfl⟩)
  | slot k => simp only [Component.same, State.slot, State.writeVs_stack]
  | key k => simp only [Component.same, State.readKey, State.writeVs_key]
  | _ => simp [Component.same]

theorem State.push_unchangedExcept {s t : State} {a : Addr} (h : s.push a = some t) :
    UnchangedExcept (fun c => c = .sp ∨ ∃ k : Fin 16, k.val = s.sp.val ∧ c = .slot k) s t := by
  obtain ⟨-, -, hslot, ht⟩ := State.push_eq_some h
  intro c hc
  cases c with
  | slot k => exact (hslot k).trans (if_neg fun hk => hc (.inr ⟨k, hk, rfl⟩))
  | sp => exact absurd (.inl rfl) hc
  | _ => rw [ht]; rfl

theorem State.pop_unchangedExcept {s t : State} {a : Addr} (h : s.pop = some (a, t)) :
    UnchangedExcept (fun c => c = .sp) s t := by
  obtain ⟨-, -, ht⟩ := State.pop_eq_some h
  intro c hc
  cases c with
  | sp => exact absurd rfl hc
  | _ => rw [ht]; rfl

/-! ### A register written with a flag, read back (R24, R149) -/

@[simp] theorem flagByte_toNat (c : Bool) : (flagByte c).toNat = if c then 1 else 0 := by
  cases c <;> rfl

@[simp] theorem State.readV_writeWithFlag_flag (s : State) (x : Reg) (b : Byte) (c : Bool) :
    (s.writeWithFlag x b c).readV 15 = flagByte c := by
  rw [State.readV_writeWithFlag, if_pos rfl]

theorem State.readV_writeWithFlag_result (s : State) {x : Reg} (hx : x ≠ 15) (b : Byte) (c : Bool) :
    (s.writeWithFlag x b c).readV x = b := by
  rw [State.readV_writeWithFlag, if_neg hx, if_pos rfl]

/-! ### 8XY4 to 8XY7 and 8XYE (R147 to R153) -/

theorem exec_addReg (x y : Reg) (s : State) : exec (.addReg x y) s =
    .next (s.advance.writeWithFlag x (s.readV x + s.readV y) (carry (s.readV x) (s.readV y))) := rfl

theorem exec_sub (x y : Reg) (s : State) : exec (.sub x y) s =
    .next (s.advance.writeWithFlag x (s.readV x - s.readV y) (noBorrow (s.readV x) (s.readV y))) := rfl

theorem exec_subn (x y : Reg) (s : State) : exec (.subn x y) s =
    .next (s.advance.writeWithFlag x (s.readV y - s.readV x) (noBorrow (s.readV y) (s.readV x))) := rfl

/-- The shifts of this hardware read `V[X]`, whatever `Y` is (R7). -/
theorem exec_shr (x y : Reg) (s : State) : exec (.shr x y) s =
    .next (s.advance.writeWithFlag x (s.readV x >>> 1) (shiftedOutRight (s.readV x))) := rfl

theorem exec_shl (x y : Reg) (s : State) : exec (.shl x y) s =
    .next (s.advance.writeWithFlag x (s.readV x <<< 1) (shiftedOutLeft (s.readV x))) := rfl

theorem byte_sub_toNat (a b : Byte) : (a - b).toNat = (a.toNat + 256 - b.toNat) % 256 := by
  have := b.isLt
  rw [BitVec.toNat_sub]; omega

theorem flagByte_shiftedOutRight_toNat (a : Byte) : (flagByte (shiftedOutRight a)).toNat = a.toNat % 2 := by
  rw [flagByte_toNat, shiftedOutRight, BitVec.getLsbD, Nat.testBit_zero]
  simp only [decide_eq_true_eq]; split <;> omega

theorem flagByte_shiftedOutLeft_toNat (a : Byte) : (flagByte (shiftedOutLeft a)).toNat = a.toNat / 128 := by
  have := a.isLt
  rw [flagByte_toNat, shiftedOutLeft, BitVec.getLsbD, Nat.testBit_eq_decide_div_mod_eq]
  simp only [decide_eq_true_eq]; split <;> omega

/-- Settles O37: the result and the flag are read back from the one write with a flag. -/
theorem addRegistersSetsCarry : Obligations.AddRegistersSetsCarry := by
  intro x y s
  refine ⟨_, exec_addReg x y s, fun hx => ?sum, ?carry, rfl, s.advance_writeWithFlag_unchangedExcept x _ _⟩
  case sum => rw [State.readV_writeWithFlag_result _ hx, BitVec.toNat_add]
  case carry => simp [carry]

/-- Settles O38: the two subtractions differ in the order of their operands only. -/
theorem subtractionsSetNoBorrow : Obligations.SubtractionsSetNoBorrow := by
  intro x y s
  refine ⟨⟨_, exec_sub x y s, fun hx => ?sub, ?flag, rfl, s.advance_writeWithFlag_unchangedExcept x _ _⟩,
    ⟨_, exec_subn x y s, fun hx => ?subn, ?flagn, rfl, s.advance_writeWithFlag_unchangedExcept x _ _⟩⟩
  case sub | subn => rw [State.readV_writeWithFlag_result _ hx, byte_sub_toNat]
  case flag | flagn => simp [noBorrow]

/-- Settles O39: the result and the bit shifted out are read back from the one write with a flag. -/
theorem shiftsSetTheBitShiftedOut : Obligations.ShiftsSetTheBitShiftedOut := by
  intro x y s
  refine ⟨⟨_, exec_shr x y s, fun hx => ?half, ?low, rfl, s.advance_writeWithFlag_unchangedExcept x _ _⟩,
    ⟨_, exec_shl x y s, fun hx => ?double, ?high, rfl, s.advance_writeWithFlag_unchangedExcept x _ _⟩⟩
  case half => rw [State.readV_writeWithFlag_result _ hx, BitVec.toNat_ushiftRight, Nat.shiftRight_one]
  case low => rw [State.readV_writeWithFlag_flag, flagByte_shiftedOutRight_toNat]
  case double => rw [State.readV_writeWithFlag_result _ hx, BitVec.toNat_shiftLeft, Nat.shiftLeft_eq]
  case high => rw [State.readV_writeWithFlag_flag, flagByte_shiftedOutLeft_toNat]

/-! ### CXNN (R154, R155) -/

theorem exec_rnd (x : Reg) (nn : Byte) (s : State) :
    exec (.rnd x nn) s = .next (s.advance.drawn.writeV x (Config.randomByte s.draws &&& nn)) := rfl

theorem State.advance_drawn_writeV_unchangedExcept (s : State) (x : Reg) (b : Byte) :
    UnchangedExcept (fun c => c = .pc ∨ c = .v x ∨ c = .draws) s (s.advance.drawn.writeV x b) :=
  (s.advance_unchangedExcept.trans (s.advance.drawn_unchangedExcept.trans
    (s.advance.drawn.writeV_unchangedExcept x b))).mono fun _ => Or.imp_right Or.symm

/-- Settles O40: the mask's complement leaves nothing of a byte under the mask. -/
theorem randomIsADrawUnderItsMask : Obligations.RandomIsADrawUnderItsMask := by
  intro x nn s
  have hread := State.readV_writeV_same s.advance.drawn x (Config.randomByte s.draws &&& nn)
  refine ⟨_, exec_rnd x nn s, hread, ?masked, rfl, rfl, s.advance_drawn_writeV_unchangedExcept x _⟩
  case masked =>
    rw [hread, BitVec.and_assoc, BitVec.and_not_self]
    exact BitVec.and_zero

end Sys2Proof.Machine

namespace Sys2Proof.Machine

/-! ### BNNN (R125) and 5XY0, 9XY0 (R132, R133) -/

theorem exec_jpV0 (nnn : Addr12) (s : State) :
    exec (.jpV0 nnn) s = .next (s.setPc (addrOperand nnn + s.wideV 0)) := rfl

theorem exec_seReg (x y : Reg) (s : State) :
    exec (.seReg x y) s = .next (s.advance.skipIf (s.readV x == s.readV y)) := rfl

theorem exec_sneReg (x y : Reg) (s : State) :
    exec (.sneReg x y) s = .next (s.advance.skipIf (s.readV x != s.readV y)) := rfl

/-- Zero extension keeps the number (R11). -/
@[simp] theorem State.wideV_toNat (s : State) (x : Reg) : (s.wideV x).toNat = (s.readV x).toNat :=
  BitVec.toNat_setWidth_of_le (by decide)

/-- Settles O27: the sum of 12 bits and 8 bits fits 16 bits. -/
theorem jumpWithOffsetAddsV0 : Obligations.JumpWithOffsetAddsV0 := by
  intro nnn s
  refine ⟨_, exec_jpV0 nnn s, ?_, s.setPc_unchangedExcept _⟩
  have := nnn.isLt
  have := (s.readV 0).isLt
  rw [State.setPc_pc, BitVec.toNat_add, addrOperand_toNat, State.wideV_toNat]
  omega

/-- Settles O32: both instructions are one skip after `advance`, on opposite conditions. -/
theorem skipOnRegisterComparison : Obligations.SkipOnRegisterComparison := by
  intro x y s
  constructor
  · have hpc := s.advance_skipIf_pc (s.readV x == s.readV y)
    simp only [beq_iff_eq] at hpc
    exact ⟨_, exec_seReg x y s, hpc, s.advance_skipIf_unchangedExcept _⟩
  · have hpc := s.advance_skipIf_pc (s.readV x != s.readV y)
    simp only [bne_iff_ne, ne_eq, ite_not] at hpc
    exact ⟨_, exec_sneReg x y s, hpc, s.advance_skipIf_unchangedExcept _⟩

/-! ### Taking a fatal condition (R180, R181) -/

theorem raise_eq (s : State) (k : FaultKind) (w : Option Word) (a : Option Nat) :
    raise s k w a = .next (s.halt ⟨k, s.pc, w, a⟩) := rfl

/-! ### EX9E and EXA1 (R134, R135) -/

theorem exec_skp_of_key {x : Reg} {s : State} {k : KeyIndex} (h : (s.readV x).toNat = k.val) :
    exec (.skp x) s = .next (s.advance.skipIf (s.readKey k)) := by
  simp only [exec, execSkp, (s.keyOperand_eq_some x k).mpr h]

theorem exec_sknp_of_key {x : Reg} {s : State} {k : KeyIndex} (h : (s.readV x).toNat = k.val) :
    exec (.sknp x) s = .next (s.advance.skipIf (!s.readKey k)) := by
  simp only [exec, execSknp, (s.keyOperand_eq_some x k).mpr h]

theorem exec_skp_of_no_key {x : Reg} {s : State} (h : 15 < (s.readV x).toNat) :
    exec (.skp x) s = .next (s.halt ⟨.keyIndexOutOfRange, s.pc, some (encode (.skp x)), none⟩) := by
  simp only [exec, execSkp, (s.keyOperand_eq_none x).mpr h, raise_eq]

theorem exec_sknp_of_no_key {x : Reg} {s : State} (h : 15 < (s.readV x).toNat) :
    exec (.sknp x) s = .next (s.halt ⟨.keyIndexOutOfRange, s.pc, some (encode (.sknp x)), none⟩) := by
  simp only [exec, execSknp, (s.keyOperand_eq_none x).mpr h, raise_eq]

theorem wordXNN_eq_ofNat (op : Nibble) (x : Reg) (nn : Byte) :
    wordXNN op x nn = BitVec.ofNat 16 (op.toNat * 4096 + nn.toNat + 256 * x.val) := by
  have := (wordXNN op x nn).isLt
  rw [wordXNN_toNat] at this
  apply BitVec.eq_of_toNat_eq
  rw [wordXNN_toNat, BitVec.toNat_ofNat]
  omega

/-- Settles O33: with a key named, one skip on its state; with none, the record carries the instruction's word. -/
theorem skipOnKeyState : Obligations.SkipOnKeyState := by
  intro x s
  refine ⟨fun k hk => ⟨?skp, ?sknp⟩, fun hnone => ⟨?skpFault, ?sknpFault⟩⟩
  case skp => exact ⟨_, exec_skp_of_key hk, s.advance_skipIf_pc _, s.advance_skipIf_unchangedExcept _⟩
  case sknp =>
    have hpc := s.advance_skipIf_pc (!s.readKey k)
    simp only [Bool.not_eq_true', ← Bool.not_eq_true, ite_not] at hpc
    exact ⟨_, exec_sknp_of_key hk, hpc, s.advance_skipIf_unchangedExcept _⟩
  case skpFault => rw [exec_skp_of_no_key hnone, encode, wordXNN_eq_ofNat]; rfl
  case sknpFault => rw [exec_sknp_of_no_key hnone, encode, wordXNN_eq_ofNat]; rfl

/-! ### FX1E and FX29 (R161, R162) -/

theorem exec_addI (x : Reg) (s : State) : exec (.addI x) s = .next (s.advance.setI (s.i + s.wideV x)) := rfl

theorem exec_ldF (x : Reg) (s : State) : exec (.ldF x) s = .next (s.advance.setI (s.wideV x * 5)) := rfl

/-- Settles O42: five times a byte fits 16 bits, the sum of `I` and a byte may not. -/
theorem addressRegisterArithmetic : Obligations.AddressRegisterArithmetic := by
  intro x s
  refine ⟨⟨_, exec_addI x s, ?sum, rfl, s.advance_setI_unchangedExcept _⟩,
    ⟨_, exec_ldF x s, ?glyph, rfl, s.advance_setI_unchangedExcept _⟩⟩
  case sum => rw [State.setI_i, BitVec.toNat_add, State.wideV_toNat]
  case glyph =>
    have := (s.readV x).isLt
    rw [State.setI_i, BitVec.toNat_mul, State.wideV_toNat, show (5 : Addr).toNat = 5 from rfl]
    omega

/-! ### FX07, FX0A, FX15 and FX18 (R170 to R174) -/

theorem exec_ldVxDt (x : Reg) (s : State) : exec (.ldVxDt x) s = .next (s.advance.writeV x s.dt) := rfl

theorem exec_ldVxK (x : Reg) (s : State) : exec (.ldVxK x) s = .next (s.advance.setMode (.awaitingKey x)) := rfl

theorem exec_ldDtVx (x : Reg) (s : State) : exec (.ldDtVx x) s = .next (s.advance.setDt (s.readV x)) := rfl

theorem exec_ldStVx (x : Reg) (s : State) : exec (.ldStVx x) s = .next (s.advance.setSt (s.readV x)) := rfl

theorem State.advance_setDt_unchangedExcept (s : State) (b : Byte) :
    UnchangedExcept (fun c => c = .pc ∨ c = .dt) s (s.advance.setDt b) :=
  s.advance_unchangedExcept.trans (s.advance.setDt_unchangedExcept b)

theorem State.advance_setSt_unchangedExcept (s : State) (b : Byte) :
    UnchangedExcept (fun c => c = .pc ∨ c = .st) s (s.advance.setSt b) :=
  s.advance_unchangedExcept.trans (s.advance.setSt_unchangedExcept b)

theorem State.advance_setMode_unchangedExcept (s : State) (m : Mode) :
    UnchangedExcept (fun c => c = .pc ∨ c = .mode) s (s.advance.setMode m) :=
  s.advance_unchangedExcept.trans (s.advance.setMode_unchangedExcept m)

/-- Settles O47: one register write and one timer write after `advance`. -/
theorem delayTimerIsReadAndSet : Obligations.DelayTimerIsReadAndSet := by
  intro x s
  constructor
  · exact ⟨_, exec_ldVxDt x s, State.readV_writeV_same .., rfl, s.advance_writeV_unchangedExcept x _⟩
  · exact ⟨_, exec_ldDtVx x s, rfl, rfl, s.advance_setDt_unchangedExcept _⟩

/-- Settles O48: one timer write after `advance`. -/
theorem soundTimerIsSet : Obligations.SoundTimerIsSet :=
  fun x s => ⟨_, exec_ldStVx x s, rfl, rfl, s.advance_setSt_unchangedExcept _⟩

/-- Settles O49: one change of mode after `advance`, the keys not looked at. -/
theorem waitForKeyEntersAwaitingKey : Obligations.WaitForKeyEntersAwaitingKey :=
  fun x s => ⟨_, exec_ldVxK x s, rfl, rfl, s.advance_setMode_unchangedExcept _⟩

end Sys2Proof.Machine

namespace Sys2Proof.Machine

/-! ### 2NNN and 00EE (R120, R122) -/

theorem exec_call_of_lt (nnn : Addr12) {s : State} (h : s.sp.val < 16) :
    ∃ t, s.advance.push (s.pc + 2) = some t ∧ exec (.call nnn) s = .next (t.setPc (addrOperand nnn)) := by
  have hpush := State.push_of_lt s.advance (s.pc + 2) h
  refine ⟨_, hpush, ?_⟩
  simp only [exec, execCall, State.advance_pc, hpush]

theorem exec_call_full (nnn : Addr12) {s : State} (h : s.sp.val = 16) :
    exec (.call nnn) s = .next (s.halt ⟨.stackOverflow, s.pc, some (encode (.call nnn)), none⟩) := by
  simp only [exec, execCall, State.push_full s.advance s.advance.pc h, raise_eq]

theorem exec_ret_of_pos {s : State} (h : 0 < s.sp.val) :
    ∃ a t, s.advance.pop = some (a, t) ∧ exec .ret s = .next (t.setPc a) := by
  obtain ⟨hk, hpop⟩ := State.pop_of_pos s.advance h
  refine ⟨_, _, hpop, ?_⟩
  simp only [exec, execRet, hpop]

theorem exec_ret_empty {s : State} (h : s.sp.val = 0) :
    exec .ret s = .next (s.halt ⟨.stackUnderflow, s.pc, some (encode .ret), none⟩) := by
  simp only [exec, execRet, State.pop_empty s.advance h, raise_eq]

theorem State.advance_push_setPc_unchangedExcept {s t : State} {a : Addr} (h : s.advance.push a = some t) (b : Addr) :
    UnchangedExcept (fun c => c = .pc ∨ c = .sp ∨ ∃ k : Fin 16, k.val = s.sp.val ∧ c = .slot k) s (t.setPc b) := by
  have hframe := (s.advance_unchangedExcept.trans (State.push_unchangedExcept h)).trans (t.setPc_unchangedExcept b)
  exact hframe.mono fun c => Or.rec id .inl

theorem State.advance_pop_setPc_unchangedExcept {s t : State} {a : Addr} (h : s.advance.pop = some (a, t)) (b : Addr) :
    UnchangedExcept (fun c => c = .pc ∨ c = .sp) s (t.setPc b) := by
  have hframe := (s.advance_unchangedExcept.trans (State.pop_unchangedExcept h)).trans (t.setPc_unchangedExcept b)
  exact hframe.mono fun c => Or.rec id .inl

theorem encode_call_eq_ofNat (nnn : Addr12) : encode (.call nnn) = BitVec.ofNat 16 (0x2000 + nnn.toNat) := by
  have := nnn.isLt
  apply BitVec.eq_of_toNat_eq
  rw [encode, wordNNN_toNat, BitVec.toNat_ofNat, show (0x2 : Nibble).toNat = 2 from rfl]
  omega

/-- Settles O28: one push, then the jump. -/
theorem callPushesTheReturnAddressAndJumps : Obligations.CallPushesTheReturnAddressAndJumps := by
  intro nnn s
  refine ⟨fun k hk => ?push, fun hfull => ?overflow⟩
  case push =>
    obtain ⟨t, hpush, hexec⟩ := exec_call_of_lt nnn (hk ▸ k.isLt : s.sp.val < 16)
    obtain ⟨-, hsp, hslot, -⟩ := State.push_eq_some hpush
    have hframe := State.advance_push_setPc_unchangedExcept hpush (addrOperand nnn)
    refine ⟨_, hexec, ?_, hsp, addrOperand_toNat nnn, hframe.mono ?_⟩
    · rw [State.slot_setPc, hslot]
      exact if_pos hk.symm
    · rintro c (hc | hc | ⟨j, hj, hc⟩)
      · exact .inl hc
      · exact .inr (.inl hc)
      · exact .inr (.inr (hc.trans (congrArg Component.slot (Fin.ext (hj.trans hk)))))
  case overflow => rw [exec_call_full nnn hfull, encode_call_eq_ofNat]; rfl

/-- Settles O29: one pop, then the write of `pc`. -/
theorem returnPopsIntoPc : Obligations.ReturnPopsIntoPc := by
  intro s
  refine ⟨fun k hk => ?pop, fun hempty => ?underflow⟩
  case pop =>
    obtain ⟨a, t, hpop, hexec⟩ := exec_ret_of_pos (hk ▸ Nat.succ_pos k.val : 0 < s.sp.val)
    obtain ⟨hsp, hnewest, -⟩ := State.pop_eq_some hpop
    refine ⟨_, hexec, hnewest k hk.symm, ?_, State.advance_pop_setPc_unchangedExcept hpop a⟩
    exact Nat.succ.inj (hsp.trans hk)
  case underflow => rw [exec_ret_empty hempty]; rfl

/-! ### Calls and as many returns (R123) -/

theorem execAll_cons_of_next {i : Instr} {is : List Instr} {s t : State} (h : exec i s = .next t) :
    execAll (i :: is) s = execAll is t := by
  simp only [execAll, h]

/-- What calls followed by as many returns may leave changed: `pc` and the slots that were inactive. -/
def pcAndInactiveSlots (s : State) (c : Component) : Prop :=
  c = .pc ∨ ∃ k : Fin 16, s.sp.val ≤ k.val ∧ c = .slot k

/-- The calls and returns run through, whatever follows them; the outermost pair encloses the others, which leave the
slot of its return address alone. -/
theorem execAll_calls_returns (targets : List Addr12) (rest : List Instr) (s : State)
    (hcap : s.sp.val + targets.length ≤ 16) :
    ∃ t, execAll (targets.map Instr.call ++ (List.replicate targets.length .ret ++ rest)) s = execAll rest t ∧
      t.pc = (if targets = [] then s.pc else s.pc + 2) ∧ UnchangedExcept (pcAndInactiveSlots s) s t := by
  induction targets generalizing s rest with
  | nil => exact ⟨s, rfl, rfl, fun c _ => by cases c <;> rfl⟩
  | cons target targets ih =>
    simp only [List.length_cons] at hcap
    obtain ⟨k, hk⟩ : ∃ k : Fin 16, s.sp.val = k.val := ⟨⟨s.sp.val, by omega⟩, rfl⟩
    obtain ⟨called, hcall, hpushed, hdeeper, -, hcalled⟩ := (callPushesTheReturnAddressAndJumps target s).1 k hk
    obtain ⟨inner, hinner, -, hkept⟩ := ih (.ret :: rest) called (by omega)
    have hsp : inner.sp = called.sp := hkept .sp (by rintro (h | ⟨_, -, h⟩) <;> cases h)
    have hslot : inner.slot k = called.slot k := by
      refine hkept (.slot k) ?_
      rintro (h | ⟨j, hj, h⟩)
      · cases h
      · cases h; omega
    obtain ⟨t, hret, hpc, hpopped, hreturned⟩ := (returnPopsIntoPc inner).1 k (by rw [hsp, hdeeper, hk])
    refine ⟨t, ?run, ?back, ?frame⟩
    case run =>
      rw [List.map_cons, List.cons_append, execAll_cons_of_next hcall, List.length_cons, List.replicate_succ',
        List.append_assoc]
      exact hinner.trans (execAll_cons_of_next hret)
    case back => rw [hpc, hslot, hpushed, if_neg (List.cons_ne_nil _ _)]
    case frame =>
      intro c hc
      by_cases hsame : c = .sp
      · subst hsame
        exact Fin.ext (hpopped.trans hk.symm)
      · refine ((hcalled.trans hkept).trans hreturned) c ?_
        rintro (((h | h | h) | h | ⟨j, hj, h⟩) | h | h)
        · exact hc (.inl h)
        · exact hsame h
        · exact hc (.inr ⟨k, hk.le, h⟩)
        · exact hc (.inl h)
        · exact hc (.inr ⟨j, by omega, h⟩)
        · exact hc (.inl h)
        · exact hsame h

/-- Settles O30: the case of the lemma in which nothing follows the returns. -/
theorem callsThenReturnsRestoreInLifoOrder : Obligations.CallsThenReturnsRestoreInLifoOrder := by
  intro targets s hne hcap
  obtain ⟨t, hrun, hpc, hframe⟩ := execAll_calls_returns targets [] s hcap
  rw [List.append_nil] at hrun
  exact ⟨t, hrun, hpc.trans (if_neg hne), hframe⟩

end Sys2Proof.Machine

namespace Sys2Proof.Machine

/-! ### The checked access against the closed forms of R182 -/

/-- The fatal condition of an access to the `n` addresses from `a` on: the first failing address and its fault. -/
def firstFatal (check : Nat → Option FaultKind) (a n : Nat) : Option (FaultKind × Option Nat) :=
  (firstFailing check a n).map fun p => (p.1, some p.2)

theorem firstFatal_readCheck (a n : Nat) : firstFatal readCheck a n = readFatal a n := by
  rw [firstFatal, firstFailing_readCheck]
  unfold readFatal
  split_ifs <;> rfl

theorem firstFatal_writeCheck (a n : Nat) : firstFatal writeCheck a n = writeFatal a n := by
  rw [firstFatal, firstFailing_writeCheck]
  unfold writeFatal readFatal
  split_ifs <;> rfl

theorem checked_of_fatal {check : Nat → Option FaultKind} {n : Nat} {ins : Instr} {s done : State}
    {k : FaultKind × Option Nat} (h : firstFatal check s.i.toNat n = some k) :
    checked check n ins s done = .next (s.halt ⟨k.1, s.pc, some (encode ins), k.2⟩) := by
  obtain ⟨p, hp, rfl⟩ := Option.map_eq_some_iff.mp h
  rw [checked_fail hp, raise_eq]

theorem checked_of_no_fatal {check : Nat → Option FaultKind} {n : Nat} {ins : Instr} {s done : State}
    (h : firstFatal check s.i.toNat n = none) : checked check n ins s done = .next done :=
  checked_pass (firstFailing_eq_none.mp (Option.map_eq_none_iff.mp h))

theorem readFatal_eq_none {a n : Nat} : readFatal a n = none ↔ n = 0 ∨ a + n ≤ 4096 := by
  unfold readFatal
  split
  · next h => simp only [Config.memSize] at h; simp only [reduceCtorEq, false_iff]; omega
  · next h => simp only [Config.memSize] at h; simp only [true_iff]; omega

theorem writeFatal_eq_none {a n : Nat} (hn : 0 < n) : writeFatal a n = none ↔ 0x200 ≤ a ∧ a + n ≤ 4096 := by
  unfold writeFatal
  split
  · next h => simp only [Config.programStart] at h; simp only [reduceCtorEq, false_iff]; omega
  · next h => simp only [Config.programStart] at h; rw [readFatal_eq_none]; omega

/-! ### Storing from `I` on (R60) -/

/-- The completed store: `pc` moved on and the bytes at `I` and upward. -/
def State.stored (s : State) (bs : List Byte) : State := s.advance.setMem (s.mem.writeBytes s.i.toNat bs)

@[simp] theorem State.stored_i (s : State) (bs : List Byte) : (s.stored bs).i = s.i := rfl
@[simp] theorem State.stored_mem (s : State) (bs : List Byte) :
    (s.stored bs).mem = s.mem.writeBytes s.i.toNat bs := rfl

theorem State.stored_unchangedExcept {s : State} (hm : s.mem.wf = true) (bs : List Byte) :
    UnchangedExcept (fun c => c = .pc ∨ bytesFromI s bs.length c) s (s.stored bs) :=
  s.advance_unchangedExcept.trans (s.advance.setMem_writeBytes_unchangedExcept hm s.i.toNat bs)

theorem State.stored_read {s : State} (hm : s.mem.wf = true) {bs : List Byte} {k : Nat} (hk : k < bs.length) :
    (s.stored bs).mem.read (s.memOperand k) = bs.getD k 0 := by
  rw [State.stored_mem, State.memOperand_eq, Memory.read_writeBytes hm, if_pos (by omega), Nat.add_sub_cancel_left]

theorem exec_ldB {x : Reg} {s : State} (h : fatalOf s (.ldB x) = none) :
    exec (.ldB x) s = .next (s.stored (bcdDigits (s.readV x))) :=
  checked_of_no_fatal ((firstFatal_writeCheck _ _).trans h)

theorem exec_ldMemVx {x : Reg} {s : State} (h : fatalOf s (.ldMemVx x) = none) :
    exec (.ldMemVx x) s = .next (s.stored (s.readVs 0 (x.val + 1))) :=
  checked_of_no_fatal ((firstFatal_writeCheck _ _).trans h)

theorem State.readVs_up_to_length (s : State) (x : Reg) : (s.readVs 0 (x.val + 1)).length = x.val + 1 :=
  s.readVs_length 0 (x.val + 1) (by omega)

theorem State.stored_bcd_unchangedExcept {s : State} (hm : s.mem.wf = true) (x : Reg) :
    UnchangedExcept (fun c => c = .pc ∨ bytesFromI s 3 c) s (s.stored (bcdDigits (s.readV x))) :=
  State.stored_unchangedExcept hm (bcdDigits (s.readV x))

theorem State.stored_registers_unchangedExcept {s : State} (hm : s.mem.wf = true) (x : Reg) :
    UnchangedExcept (fun c => c = .pc ∨ bytesFromI s (x.val + 1) c) s (s.stored (s.readVs 0 (x.val + 1))) := by
  have hframe := State.stored_unchangedExcept hm (s.readVs 0 (x.val + 1))
  rwa [State.readVs_up_to_length] at hframe

theorem State.stored_registers_read {s : State} (hm : s.mem.wf = true) {x k : Reg} (hk : k ≤ x) :
    (s.stored (s.readVs 0 (x.val + 1))).mem.read (s.memOperand k.val) = s.readV k := by
  have hlt : k.val < x.val + 1 := Nat.lt_succ_of_le hk
  rw [State.stored_read hm (by rwa [State.readVs_up_to_length]), State.readVs_getD s 0 (x.val + 1) k.val hlt (by omega)]
  exact congrArg s.readV (Fin.ext (Nat.zero_add k.val))

/-- The three digits as numbers (R164). -/
theorem State.stored_bcd_read {s : State} (hm : s.mem.wf = true) (x : Reg) :
    ((s.stored (bcdDigits (s.readV x))).mem.read (s.memOperand 0)).toNat = (s.readV x).toNat / 100 ∧
    ((s.stored (bcdDigits (s.readV x))).mem.read (s.memOperand 1)).toNat = (s.readV x).toNat / 10 % 10 ∧
    ((s.stored (bcdDigits (s.readV x))).mem.read (s.memOperand 2)).toNat = (s.readV x).toNat % 10 := by
  have hbyte := (s.readV x).isLt
  have hread : ∀ k < 3, (s.stored (bcdDigits (s.readV x))).mem.read (s.memOperand k) =
      (bcdDigits (s.readV x)).getD k 0 := fun k hk => State.stored_read hm hk
  rw [hread 0 (by decide), hread 1 (by decide), hread 2 (by decide)]
  have hofNat : ∀ d < 256, (BitVec.ofNat 8 d).toNat = d := fun d hd =>
    (BitVec.toNat_ofNat d 8).trans (Nat.mod_eq_of_lt hd)
  exact ⟨hofNat _ (by omega), hofNat _ (by omega), hofNat _ (by omega)⟩

/-- Settles O43: the place values of the three digits give the byte back. -/
theorem storeBcdWritesThreeDigits : Obligations.StoreBcdWritesThreeDigits := by
  intro x s hm hlo hhi
  have hfatal : fatalOf s (.ldB x) = none := (writeFatal_eq_none (by decide)).mpr ⟨hlo, hhi⟩
  obtain ⟨hundreds, tens, ones⟩ := State.stored_bcd_read hm x
  exact ⟨_, exec_ldB hfatal, by omega, by omega, by omega, rfl, State.stored_bcd_unchangedExcept hm x⟩

/-- Settles O44: the bytes stored are the registers in order. -/
theorem registerDumpStoresInOrder : Obligations.RegisterDumpStoresInOrder := by
  intro x s hm hlo hhi
  have hfatal : fatalOf s (.ldMemVx x) = none := (writeFatal_eq_none (Nat.succ_pos _)).mpr ⟨hlo, hhi⟩
  exact ⟨_, exec_ldMemVx hfatal, fun k hk => State.stored_registers_read hm hk, rfl,
    State.stored_registers_unchangedExcept hm x⟩

/-! ### FX65 (R166) -/

/-- The completed register load: `pc` moved on and `V[0]` to `V[x]` from `I` and upward. -/
def State.loaded (s : State) (x : Reg) : State := s.advance.writeVs 0 (s.mem.readBytes s.i.toNat (x.val + 1))

theorem exec_ldVxMem {x : Reg} {s : State} (h : fatalOf s (.ldVxMem x) = none) :
    exec (.ldVxMem x) s = .next (s.loaded x) :=
  checked_of_no_fatal ((firstFatal_readCheck _ _).trans h)

theorem State.readV_loaded (s : State) (x k : Reg) :
    (s.loaded x).readV k = if k ≤ x then s.mem.read (s.memOperand k.val) else s.readV k := by
  have hlen : 0 + (s.mem.readBytes s.i.toNat (x.val + 1)).length ≤ 16 := by rw [Memory.readBytes_length]; omega
  rw [State.loaded, State.readV_writeVs _ _ _ hlen, Memory.readBytes_length]
  by_cases hk : k ≤ x
  · have hlt : k.val < x.val + 1 := Nat.lt_succ_of_le hk
    rw [if_pos (by omega), if_pos hk, Nat.sub_zero, Memory.readBytes_getD _ _ _ _ hlt]
    rfl
  · have hlt : ¬ k.val < x.val + 1 := fun h => hk (Nat.le_of_lt_succ h)
    rw [if_neg (by omega), if_neg hk]
    rfl

theorem State.loaded_unchangedExcept (s : State) (x : Reg) :
    UnchangedExcept (fun c => c = .pc ∨ ∃ r, r ≤ x ∧ c = .v r) s (s.loaded x) := by
  have hlen := Memory.readBytes_length s.mem s.i.toNat (x.val + 1)
  have hframe := s.advance_unchangedExcept.trans
    (s.advance.writeVs_unchangedExcept 0 (s.mem.readBytes s.i.toNat (x.val + 1)) (by omega))
  refine hframe.mono ?_
  rintro c (hc | ⟨r, -, hr, hc⟩)
  · exact .inl hc
  · exact .inr ⟨r, Nat.le_of_lt_succ (by omega), hc⟩

/-- Settles O45: each register of the range reads back the byte it was loaded from. -/
theorem registerLoadReadsInOrder : Obligations.RegisterLoadReadsInOrder := by
  intro x s hhi
  have hfatal : fatalOf s (.ldVxMem x) = none := readFatal_eq_none.mpr (.inr hhi)
  refine ⟨_, exec_ldVxMem hfatal, fun k hk => ?_, ?pc, s.loaded_unchangedExcept x⟩
  · rw [State.readV_loaded, if_pos hk]
  case pc => rw [State.loaded, State.writeVs_pc, State.advance_pc]

/-- Settles O46: the load reads each register's byte from where the dump stored it. -/
theorem dumpThenLoadRestoresRegisters : Obligations.DumpThenLoadRestoresRegisters := by
  intro x s t u hm hlo hhi hdump hmem hi
  have hfatal : fatalOf s (.ldMemVx x) = none := (writeFatal_eq_none (Nat.succ_pos _)).mpr ⟨hlo, hhi⟩
  rw [exec_ldMemVx hfatal] at hdump
  cases hdump
  rw [State.stored_i] at hi
  have hfatal' : fatalOf u (.ldVxMem x) = none := readFatal_eq_none.mpr (.inr (hi ▸ hhi))
  refine ⟨_, exec_ldVxMem hfatal', fun k hk => ?_, fun k hk => ?_⟩
  · have hplace : u.memOperand k.val = s.memOperand k.val := by rw [State.memOperand_eq, hi, State.memOperand_eq]
    rw [State.readV_loaded, if_pos hk, hmem, hplace, State.stored_registers_read hm hk]
  · rw [State.readV_loaded, if_neg (not_le.mpr hk)]

end Sys2Proof.Machine

namespace Sys2Proof.Machine

/-! ### DXYN (R111 to R113): the cells touched, in closed form -/

/-- The rows of the sprite at `I`. -/
def State.spriteRows (s : State) (n : Nibble) : List Byte := s.mem.readBytes s.i.toNat n.toNat

@[simp] theorem State.spriteRows_length (s : State) (n : Nibble) : (s.spriteRows n).length = n.toNat :=
  Memory.readBytes_length ..

theorem State.spriteRows_getD (s : State) {n : Nibble} {r : Nat} (hr : r < n.toNat) :
    (s.spriteRows n).getD r 0 = s.mem.read (s.memOperand r) :=
  Memory.readBytes_getD _ _ _ _ hr

theorem State.spriteRows_length_le (s : State) (n : Nibble) : (s.spriteRows n).length ≤ 32 := by
  have := n.isLt
  rw [State.spriteRows_length]; omega

/-- A column within the sprite is the cell's column counted from the sprite's left edge. -/
theorem eq_wrapX_add_iff {cx : Column} {x0 col : Nat} (hx : x0 < 256) (hcol : col < 8) :
    cx = wrapX (x0 + col) ↔ col = (cx.val + 256 - x0) % 64 := by
  have hcx : cx.val < 64 := cx.isLt
  rw [Fin.ext_iff]
  simp only [wrapX, Config.displayW]
  omega

theorem eq_wrapY_add_iff {cy : Row} {y0 row : Nat} (hy : y0 < 256) (hrow : row < 16) :
    cy = wrapY (y0 + row) ↔ row = (cy.val + 256 - y0) % 32 := by
  have hcy : cy.val < 32 := cy.isLt
  rw [Fin.ext_iff]
  simp only [wrapY, Config.displayH]
  omega

/-- The cells the sprite of DXYN touches. -/
def State.drawnCells (s : State) (x y : Reg) (n : Nibble) : List (Column × Row) :=
  spriteCells (s.readV x).toNat (s.readV y).toNat (s.spriteRows n)

theorem State.mem_drawnCells {s : State} {x y : Reg} {n : Nibble} {cx : Column} {cy : Row} :
    (cx, cy) ∈ s.drawnCells x y n ↔ spriteCovers s x y n.toNat cx cy = true := by
  have hn := n.isLt
  have hx := (s.readV x).isLt
  have hy := (s.readV y).isLt
  simp only [State.drawnCells, mem_spriteCells, State.spriteRows_length, Prod.mk.injEq, spriteCovers, spritePixel,
    Bool.and_eq_true, decide_eq_true_eq, Config.displayW, Config.displayH]
  constructor
  · rintro ⟨row, col, hrow, hcol, hpixel, hcx, hcy⟩
    rw [eq_wrapX_add_iff hx hcol] at hcx
    rw [eq_wrapY_add_iff hy (by omega)] at hcy
    rw [State.spriteRows_getD s hrow] at hpixel
    subst hcx hcy
    exact ⟨⟨hcol, hrow⟩, hpixel⟩
  · rintro ⟨⟨hcol, hrow⟩, hpixel⟩
    refine ⟨_, _, hrow, hcol, ?_, (eq_wrapX_add_iff hx hcol).mpr rfl, (eq_wrapY_add_iff hy (by omega)).mpr rfl⟩
    rwa [State.spriteRows_getD s hrow]

theorem State.cellsOfBox_of_mem_drawnCells {s : State} {x y : Reg} {n : Nibble} {p : Column × Row}
    (hp : p ∈ s.drawnCells x y n) : cellsOfBox s x y n.toNat (.cell p.1 p.2) := by
  obtain ⟨row, col, hrow, hcol, -, rfl⟩ := mem_spriteCells.mp hp
  exact ⟨col, row, hcol, by rwa [State.spriteRows_length] at hrow, rfl⟩

/-! ### DXYN: the draw -/

/-- The display after DXYN and whether it collided. -/
def State.spriteDrawn (s : State) (x y : Reg) (n : Nibble) : Display × Bool :=
  drawSprite s.disp (s.readV x).toNat (s.readV y).toNat (s.spriteRows n)

/-- The completed draw: `pc` moved on, the new display, and the collision in the flag register. -/
def State.drew (s : State) (x y : Reg) (n : Nibble) : State :=
  (s.advance.setDisp (s.spriteDrawn x y n).1).writeFlag (s.spriteDrawn x y n).2

theorem exec_drw {x y : Reg} {n : Nibble} {s : State} (h : fatalOf s (.drw x y n) = none) :
    exec (.drw x y n) s = .next (s.drew x y n) :=
  checked_of_no_fatal ((firstFatal_readCheck _ _).trans h)

theorem fatalOf_drw_eq_none {x y : Reg} {n : Nibble} {s : State} (h : n = 0 ∨ s.i.toNat + n.toNat ≤ 4096) :
    fatalOf s (.drw x y n) = none :=
  readFatal_eq_none.mpr (h.imp_left (congrArg BitVec.toNat))

theorem State.drew_cell (s : State) (x y : Reg) (n : Nibble) (cx : Column) (cy : Row) :
    (s.drew x y n).disp.cell cx cy = (s.disp.cell cx cy ^^ spriteCovers s x y n.toNat cx cy) := by
  have hcell := drawSprite_cell s.disp (s.readV x).toNat (s.readV y).toNat _ (s.spriteRows_length_le n) cx cy
  refine hcell.trans (congrArg (s.disp.cell cx cy ^^ ·) ?_)
  exact Bool.decide_congr State.mem_drawnCells |>.trans (Bool.decide_eq_true ..)

theorem State.spriteDrawn_collided (s : State) (x y : Reg) (n : Nibble) :
    (s.spriteDrawn x y n).2 = true ↔ ∃ cx cy, spriteCovers s x y n.toNat cx cy = true ∧ s.disp.cell cx cy = true := by
  have hany := drawSprite_collision s.disp (s.readV x).toNat (s.readV y).toNat _ (s.spriteRows_length_le n)
  rw [State.spriteDrawn, hany, List.any_eq_true, Prod.exists]
  exact exists_congr fun cx => exists_congr fun cy => and_congr_left' State.mem_drawnCells

theorem State.drew_flag (s : State) (x y : Reg) (n : Nibble) :
    (s.drew x y n).readV 15 = flagByte (s.spriteDrawn x y n).2 := by
  rw [State.drew, State.readV_writeFlag, if_pos rfl]

theorem State.drew_flag_set {s : State} {x y : Reg} {n : Nibble}
    (h : ∃ cx cy, spriteCovers s x y n.toNat cx cy = true ∧ s.disp.cell cx cy = true) :
    (s.drew x y n).readV 15 = 1 := by
  rw [State.drew_flag, (s.spriteDrawn_collided x y n).mpr h]; rfl

theorem State.drew_flag_clear {s : State} {x y : Reg} {n : Nibble}
    (h : ∀ cx cy, spriteCovers s x y n.toNat cx cy = true → s.disp.cell cx cy = false) :
    (s.drew x y n).readV 15 = 0 := by
  have hnot : ¬ (s.spriteDrawn x y n).2 = true := by
    rw [State.spriteDrawn_collided]
    rintro ⟨cx, cy, hcovers, hon⟩
    rw [h cx cy hcovers] at hon; cases hon
  rw [State.drew_flag, Bool.eq_false_of_not_eq_true hnot]; rfl

theorem State.drew_unchangedExcept (s : State) (x y : Reg) (n : Nibble) :
    UnchangedExcept (fun c => c = .pc ∨ c = .v 15 ∨ cellsOfBox s x y n.toNat c) s (s.drew x y n) := by
  intro c hc
  cases c with
  | cell cx cy =>
    have hnot : ¬ spriteCovers s x y n.toNat cx cy = true := fun h =>
      hc (.inr (.inr (State.cellsOfBox_of_mem_drawnCells (State.mem_drawnCells.mpr h))))
    rw [Component.same, State.drew_cell, Bool.eq_false_of_not_eq_true hnot, Bool.xor_false]
  | v r =>
    have hr : r ≠ 15 := fun h => hc (.inr (.inl (congrArg Component.v h)))
    rw [Component.same, State.drew, State.readV_writeFlag, if_neg hr, State.readV_setDisp, State.readV_advance]
  | pc => exact absurd (.inl rfl) hc
  | _ => rfl

/-- Settles O24: a cell goes from on to off exactly where it is on and the sprite covers it. -/
theorem drawTogglesExactlyItsSpritesCells : Obligations.DrawTogglesExactlyItsSpritesCells := by
  intro x y n s hn
  refine ⟨_, exec_drw (fatalOf_drw_eq_none hn), rfl, s.drew_cell x y n, ?set, ?clear, s.drew_unchangedExcept x y n⟩
  case set =>
    rintro ⟨cx, cy, hon, hoff⟩
    rw [State.drew_cell, hon, Bool.true_xor, Bool.not_eq_false'] at hoff
    exact State.drew_flag_set ⟨cx, cy, hoff, hon⟩
  case clear =>
    intro hstay
    refine State.drew_flag_clear fun cx cy hcovers => ?_
    by_contra hne
    have hon := Bool.eq_true_of_not_eq_false hne
    have hstays := hstay cx cy hon
    rw [State.drew_cell, hon, hcovers] at hstays; cases hstays

/-- A draw whose coordinates are not in the flag register leaves the sprite where it is. -/
theorem State.drew_spriteCovers (s : State) {x y : Reg} (n : Nibble) (hx : x ≠ 15) (hy : y ≠ 15) :
    spriteCovers (s.drew x y n) x y n.toNat = spriteCovers s x y n.toNat := by
  have hread : ∀ r : Reg, r ≠ 15 → (s.drew x y n).readV r = s.readV r := fun r hr => by
    rw [State.drew, State.readV_writeFlag, if_neg hr, State.readV_setDisp, State.readV_advance]
  funext cx cy
  simp only [spriteCovers, hread x hx, hread y hy]
  rfl

/-- Settles O25: the second draw covers the same cells, so each is toggled twice, and a covered cell that was off is on
when the second draw comes. -/
theorem drawingTwiceRestoresTheDisplay : Obligations.DrawingTwiceRestoresTheDisplay := by
  intro x y n s t u hx hy hn hfirst hsecond
  rw [exec_drw (fatalOf_drw_eq_none hn)] at hfirst
  cases hfirst
  rw [exec_drw (fatalOf_drw_eq_none (show n = 0 ∨ (s.drew x y n).i.toNat + n.toNat ≤ 4096 from hn))] at hsecond
  cases hsecond
  have hcovers := s.drew_spriteCovers n hx hy
  refine ⟨Display.ext_cells fun cx cy => ?restored, fun hoff => ⟨State.drew_flag_clear hoff, ?collides⟩⟩
  case restored => rw [State.drew_cell, State.drew_cell, hcovers, Bool.xor_assoc, Bool.xor_self, Bool.xor_false]
  case collides =>
    rintro ⟨cx, cy, hcovered⟩
    refine State.drew_flag_set ⟨cx, cy, ?_, ?_⟩
    · rw [hcovers, hcovered]
    · rw [State.drew_cell, hoff cx cy hcovered, hcovered, Bool.false_xor]

end Sys2Proof.Machine

namespace Sys2Proof.Machine

/-! ### What an instruction can do: its fatal condition (R182), or its completion -/

/-- An instruction whose fatal condition is met halts with it, and with its own word. -/
theorem exec_of_fatal {i : Instr} {s : State} {k : FaultKind × Option Nat} (h : fatalOf s i = some k) :
    exec i s = .next (s.halt ⟨k.1, s.pc, some (encode i), k.2⟩) := by
  cases i with
  | call nnn =>
    obtain ⟨hfull, rfl⟩ := Option.ite_some_none_eq_some.mp h
    exact exec_call_full nnn hfull
  | ret =>
    obtain ⟨hempty, rfl⟩ := Option.ite_some_none_eq_some.mp h
    exact exec_ret_empty hempty
  | skp x =>
    obtain ⟨hkey, rfl⟩ := Option.ite_some_none_eq_some.mp h
    exact exec_skp_of_no_key hkey
  | sknp x =>
    obtain ⟨hkey, rfl⟩ := Option.ite_some_none_eq_some.mp h
    exact exec_sknp_of_no_key hkey
  | drw x y n => exact checked_of_fatal ((firstFatal_readCheck _ _).trans h)
  | ldVxMem x => exact checked_of_fatal ((firstFatal_readCheck _ _).trans h)
  | ldB x => exact checked_of_fatal ((firstFatal_writeCheck _ _).trans h)
  | ldMemVx x => exact checked_of_fatal ((firstFatal_writeCheck _ _).trans h)
  | _ => cases h

theorem not_of_ite_some_eq_none {α : Type} {p : Prop} [Decidable p] {a : α} (h : (if p then some a else none) = none) :
    ¬ p := fun hp => by
  rw [if_pos hp] at h; cases h

theorem sp_lt_of_no_overflow {nnn : Addr12} {s : State} (h : fatalOf s (.call nnn) = none) : s.sp.val < 16 :=
  Nat.lt_of_le_of_ne (Nat.le_of_lt_succ s.sp.isLt) (not_of_ite_some_eq_none h)

theorem sp_pos_of_no_underflow {s : State} (h : fatalOf s .ret = none) : 0 < s.sp.val :=
  Nat.pos_of_ne_zero (not_of_ite_some_eq_none h)

/-- The condition is that of both key skips. -/
theorem readV_lt_of_no_key_fault {x : Reg} {s : State} (h : fatalOf s (.skp x) = none) : (s.readV x).toNat < 16 :=
  Nat.lt_succ_of_le (Nat.le_of_not_lt (not_of_ite_some_eq_none h))

/-- The operating state an instruction that completes leaves (R30): only FX0A changes it. -/
def modeAfter : Instr → Mode → Mode
  | .ldVxK x, _ => .awaitingKey x
  | _, m => m

theorem modeAfter_of_ne {i : Instr} (h : ∀ x, i ≠ .ldVxK x) (m : Mode) : modeAfter i m = m := by
  cases i with
  | ldVxK x => exact absurd rfl (h x)
  | _ => rfl

/-- What is known of the state `t` in which an instruction completes that started in `s`. -/
structure Completes (i : Instr) (s t : State) : Prop where
  /-- The operating state. -/
  mode : t.mode = modeAfter i s.mode
  /-- The memory as data: as before, or with bytes stored from `I` on, all in the writable region. -/
  mem : t.mem = s.mem ∨
    ∃ bs : List Byte, 0x200 ≤ s.i.toNat ∧ s.i.toNat + bs.length ≤ 4096 ∧ t.mem = s.mem.writeBytes s.i.toNat bs
  /-- The frame; canonical memory is what a write needs to leave the other bytes alone. -/
  frame : s.mem.wf = true → UnchangedExcept (fun c => c = .pc ∨ writesOf s i c) s t

theorem stored_completes {i : Instr} {s : State} {bs : List Byte} (hi : ∀ m, modeAfter i m = m)
    (hfatal : writeFatal s.i.toNat bs.length = none) (hbs : 0 < bs.length)
    (hframe : s.mem.wf = true → UnchangedExcept (fun c => c = .pc ∨ writesOf s i c) s (s.stored bs)) :
    Completes i s (s.stored bs) := by
  obtain ⟨hlo, hhi⟩ := (writeFatal_eq_none hbs).mp hfatal
  exact ⟨(hi s.mode).symm, .inr ⟨bs, hlo, hhi, rfl⟩, hframe⟩

/-- The skips, taken or not, complete with nothing written but `pc`. -/
theorem skipIf_completes {i : Instr} {s : State} (taken : Bool) (hi : ∀ m, modeAfter i m = m) :
    Completes i s (s.advance.skipIf taken) :=
  ⟨(State.skipIf_mode ..).trans (hi s.mode).symm, .inl (State.skipIf_mem ..),
    fun _ => (s.advance_skipIf_unchangedExcept taken).mono fun _ => .inl⟩

/-- The jumps complete with nothing written but `pc`. -/
theorem setPc_completes {i : Instr} {s : State} (a : Addr) (hi : ∀ m, modeAfter i m = m) :
    Completes i s (s.setPc a) :=
  ⟨(hi s.mode).symm, .inl rfl, fun _ => (s.setPc_unchangedExcept a).mono fun _ => .inl⟩

/-- An instruction whose fatal condition is not met completes. -/
theorem exec_of_no_fatal {i : Instr} {s : State} (h : fatalOf s i = none) :
    ∃ t, exec i s = .next t ∧ Completes i s t := by
  cases i with
  | cls =>
    exact ⟨_, exec_cls s, rfl, .inl rfl, fun _ => s.advance_unchangedExcept.trans (s.advance.setDisp_unchangedExcept _)⟩
  | ret =>
    obtain ⟨a, t, hpop, hexec⟩ := exec_ret_of_pos (sp_pos_of_no_underflow h)
    obtain ⟨-, -, ht⟩ := State.pop_eq_some hpop
    refine ⟨_, hexec, ?_, .inl ?_, fun _ => State.advance_pop_setPc_unchangedExcept hpop a⟩
    · rw [ht]; rfl
    · rw [ht]; rfl
  | call nnn =>
    obtain ⟨t, hpush, hexec⟩ := exec_call_of_lt nnn (sp_lt_of_no_overflow h)
    obtain ⟨-, -, -, ht⟩ := State.push_eq_some hpush
    refine ⟨_, hexec, ?_, .inl ?_, fun _ => State.advance_push_setPc_unchangedExcept hpush _⟩
    · rw [ht]; rfl
    · rw [ht]; rfl
  | jp nnn => exact ⟨_, exec_jp nnn s, setPc_completes _ fun _ => rfl⟩
  | jpV0 nnn => exact ⟨_, exec_jpV0 nnn s, setPc_completes _ fun _ => rfl⟩
  | seImm x nn => exact ⟨_, exec_seImm x nn s, skipIf_completes _ fun _ => rfl⟩
  | sneImm x nn => exact ⟨_, exec_sneImm x nn s, skipIf_completes _ fun _ => rfl⟩
  | seReg x y => exact ⟨_, exec_seReg x y s, skipIf_completes _ fun _ => rfl⟩
  | sneReg x y => exact ⟨_, exec_sneReg x y s, skipIf_completes _ fun _ => rfl⟩
  | skp x =>
    exact ⟨_, exec_skp_of_key (k := ⟨_, readV_lt_of_no_key_fault h⟩) rfl, skipIf_completes _ fun _ => rfl⟩
  | sknp x =>
    exact ⟨_, exec_sknp_of_key (k := ⟨_, readV_lt_of_no_key_fault h⟩) rfl, skipIf_completes _ fun _ => rfl⟩
  | ldImm x nn => exact ⟨_, exec_ldImm x nn s, rfl, .inl rfl, fun _ => s.advance_writeV_unchangedExcept x _⟩
  | addImm x nn => exact ⟨_, exec_addImm x nn s, rfl, .inl rfl, fun _ => s.advance_writeV_unchangedExcept x _⟩
  | ldReg x y => exact ⟨_, exec_ldReg x y s, rfl, .inl rfl, fun _ => s.advance_writeV_unchangedExcept x _⟩
  | orReg x y => exact ⟨_, exec_orReg x y s, rfl, .inl rfl, fun _ => s.advance_writeV_unchangedExcept x _⟩
  | andReg x y => exact ⟨_, exec_andReg x y s, rfl, .inl rfl, fun _ => s.advance_writeV_unchangedExcept x _⟩
  | xorReg x y => exact ⟨_, exec_xorReg x y s, rfl, .inl rfl, fun _ => s.advance_writeV_unchangedExcept x _⟩
  | ldVxDt x => exact ⟨_, exec_ldVxDt x s, rfl, .inl rfl, fun _ => s.advance_writeV_unchangedExcept x _⟩
  | addReg x y => exact ⟨_, exec_addReg x y s, rfl, .inl rfl, fun _ => s.advance_writeWithFlag_unchangedExcept x _ _⟩
  | sub x y => exact ⟨_, exec_sub x y s, rfl, .inl rfl, fun _ => s.advance_writeWithFlag_unchangedExcept x _ _⟩
  | shr x y => exact ⟨_, exec_shr x y s, rfl, .inl rfl, fun _ => s.advance_writeWithFlag_unchangedExcept x _ _⟩
  | subn x y => exact ⟨_, exec_subn x y s, rfl, .inl rfl, fun _ => s.advance_writeWithFlag_unchangedExcept x _ _⟩
  | shl x y => exact ⟨_, exec_shl x y s, rfl, .inl rfl, fun _ => s.advance_writeWithFlag_unchangedExcept x _ _⟩
  | rnd x nn => exact ⟨_, exec_rnd x nn s, rfl, .inl rfl, fun _ => s.advance_drawn_writeV_unchangedExcept x _⟩
  | drw x y n => exact ⟨_, exec_drw h, rfl, .inl rfl, fun _ => s.drew_unchangedExcept x y n⟩
  | ldI nnn => exact ⟨_, exec_ldI nnn s, rfl, .inl rfl, fun _ => s.advance_setI_unchangedExcept _⟩
  | addI x => exact ⟨_, exec_addI x s, rfl, .inl rfl, fun _ => s.advance_setI_unchangedExcept _⟩
  | ldF x => exact ⟨_, exec_ldF x s, rfl, .inl rfl, fun _ => s.advance_setI_unchangedExcept _⟩
  | ldVxK x => exact ⟨_, exec_ldVxK x s, rfl, .inl rfl, fun _ => s.advance_setMode_unchangedExcept _⟩
  | ldDtVx x => exact ⟨_, exec_ldDtVx x s, rfl, .inl rfl, fun _ => s.advance_setDt_unchangedExcept _⟩
  | ldStVx x => exact ⟨_, exec_ldStVx x s, rfl, .inl rfl, fun _ => s.advance_setSt_unchangedExcept _⟩
  | ldB x =>
    exact ⟨_, exec_ldB h, stored_completes (fun _ => rfl) h (by decide : 0 < 3)
      fun hm => State.stored_bcd_unchangedExcept hm x⟩
  | ldMemVx x =>
    have hlen := s.readVs_up_to_length x
    exact ⟨_, exec_ldMemVx h, stored_completes (fun _ => rfl) (by rw [hlen]; exact h) (by omega)
      fun hm => State.stored_registers_unchangedExcept hm x⟩
  | ldVxMem x =>
    refine ⟨_, exec_ldVxMem h, ?_, .inl ?_, fun _ => s.loaded_unchangedExcept x⟩
    · exact State.writeVs_mode ..
    · exact State.writeVs_mem ..

/-- Everything an instruction can do: take its fatal condition, or complete. -/
theorem exec_eq_next {i : Instr} {s t : State} (h : exec i s = .next t) :
    (∃ k, fatalOf s i = some k ∧ t = s.halt ⟨k.1, s.pc, some (encode i), k.2⟩) ∨
      (fatalOf s i = none ∧ Completes i s t) := by
  cases hk : fatalOf s i with
  | some k =>
    rw [exec_of_fatal hk] at h
    cases h
    exact .inl ⟨k, rfl, rfl⟩
  | none =>
    obtain ⟨u, hu, hcompletes⟩ := exec_of_no_fatal hk
    rw [hu] at h
    cases h
    exact .inr ⟨rfl, hcompletes⟩

/-- Settles O55: an instruction that does not take its fatal condition completes, with the frame of its completion. -/
theorem everyInstructionWritesOnlyItsDestinations : Obligations.EveryInstructionWritesOnlyItsDestinations := by
  intro i s t hm h
  obtain ⟨k, -, rfl⟩ | ⟨-, hcompletes⟩ := exec_eq_next h
  · exact .inl ⟨_, rfl⟩
  · exact .inr (hcompletes.frame hm)

end Sys2Proof.Machine

namespace Sys2Proof.Machine

/-! ### A running step by what is fetched (R91, R92, R190) -/

theorem runningStep_of_no_word {s : State} (h : s.fetchWord = none) :
    runningStep s = .next (s.halt ⟨.fetchOutOfBounds, s.pc, none, none⟩) := by
  simp only [runningStep, h, raise_eq]

theorem runningStep_of_unknown {s : State} {w : Word} (hw : s.fetchWord = some w) (hd : decodeWord w = none) :
    runningStep s = .next (s.halt ⟨.unknownOpcode, s.pc, some w, none⟩) := by
  simp only [runningStep, hw, hd, raise_eq]

theorem runningStep_of_instr {s : State} {w : Word} {i : Instr} (hw : s.fetchWord = some w)
    (hd : decodeWord w = some i) : runningStep s = exec i s := by
  simp only [runningStep, hw, hd]

theorem State.fetchWord_eq_some {s : State} {w : Word} : s.fetchWord = some w ↔
    s.pc.toNat + 1 < 4096 ∧ wordOfBytes (s.mem.read s.pc.toNat) (s.mem.read (s.pc.toNat + 1)) = w :=
  Option.ite_some_none_eq_some

theorem State.fatal_of_no_word {s : State} (h : s.fetchWord = none) :
    s.fatal = some ⟨.fetchOutOfBounds, s.pc, none, none⟩ :=
  if_pos (Nat.le_of_not_lt (not_of_ite_some_eq_none h))

theorem State.fatal_of_unknown {s : State} {w : Word} (hw : s.fetchWord = some w) (hd : decodeWord w = none) :
    s.fatal = some ⟨.unknownOpcode, s.pc, some w, none⟩ := by
  obtain ⟨hpc, rfl⟩ := State.fetchWord_eq_some.mp hw
  simp only [State.fatal, Config.memSize, if_neg (Nat.not_le_of_lt hpc), hd]

theorem State.fatal_of_instr {s : State} {w : Word} {i : Instr} (hw : s.fetchWord = some w)
    (hd : decodeWord w = some i) : s.fatal = (fatalOf s i).map fun k => ⟨k.1, s.pc, some w, k.2⟩ := by
  obtain ⟨hpc, rfl⟩ := State.fetchWord_eq_some.mp hw
  simp only [State.fatal, Config.memSize, if_neg (Nat.not_le_of_lt hpc), hd]

/-- The word at `pc`, its bytes put together as a number, high byte first (R56). -/
theorem State.fetchWord_of_toNat {s : State} {w : Word} (hpc : s.pc.toNat + 1 < 4096)
    (hw : w.toNat = 256 * (s.mem.read s.pc.toNat).toNat + (s.mem.read (s.pc.toNat + 1)).toNat) :
    s.fetchWord = some w := by
  refine State.fetchWord_eq_some.mpr ⟨hpc, BitVec.eq_of_toNat_eq ?_⟩
  rw [wordOfBytes_toNat, hw, Nat.mul_comm]

/-- Settles O7: the word is the fetched one. -/
theorem stepExecutesTheDecodedInstruction : Obligations.StepExecutesTheDecodedInstruction := by
  intro s w i hmode hpc hw hd
  rw [step_of_running hmode, runningStep_of_instr (State.fetchWord_of_toNat hpc hw) hd]

/-- Settles O8: nothing is fetched. -/
theorem fetchOutsideMemoryHalts : Obligations.FetchOutsideMemoryHalts := by
  intro s hmode hpc
  rw [step_of_running hmode, runningStep_of_no_word (State.fetchWord_of_le hpc)]
  rfl

/-- Settles O9: the word is the fetched one. -/
theorem unknownWordHalts : Obligations.UnknownWordHalts := by
  intro s w hmode hpc hw hd
  rw [step_of_running hmode, runningStep_of_unknown (State.fetchWord_of_toNat hpc hw) hd]
  rfl

/-- Settles O17: the jump writes `pc` with the value it has. -/
theorem selfJumpIsAFixedPoint : Obligations.SelfJumpIsAFixedPoint := by
  rintro s ⟨hmode, nnn, hw, hpc⟩
  rw [step_of_running hmode, runningStep_of_instr hw (decodeWord_encode (.jp nnn)), exec_jp, hpc]
  rfl

/-! ### A word placed for the next step -/

theorem decodeWord_of_decodeTableWord {w : Nat} {i : Instr} (h : decodeTableWord 16 w = some i) :
    decodeWord (BitVec.ofNat 16 (w % 2 ^ 16)) = some i := by
  simp only [decodeTableWord, decodeBytes, wordOfBytes_bytes] at h
  cases hd : decodeWord (BitVec.ofNat 16 (w % 2 ^ 16)) with
  | some j => rw [hd] at h; exact h
  | none => rw [hd] at h; cases h

theorem State.fetchAddr_lt (s : State) : s.fetchAddr.toNat + 1 < 4096 := by
  unfold State.fetchAddr
  split
  · assumption
  · decide

theorem State.fetchWord_placeWord {s : State} (hm : s.mem.wf = true) (w : Word) :
    (s.placeWord w).fetchWord = some w := by
  refine State.fetchWord_eq_some.mpr ⟨s.fetchAddr_lt, ?_⟩
  have hm' := Memory.wf_write hm s.fetchAddr.toNat (highByte w)
  have hhigh : (s.placeWord w).mem.read s.fetchAddr.toNat = highByte w := by
    rw [State.placeWord, State.setMem_mem, Memory.read_write hm', if_neg (by omega), Memory.read_write hm, if_pos rfl]
  have hlow : (s.placeWord w).mem.read (s.fetchAddr.toNat + 1) = lowByte w := by
    rw [State.placeWord, State.setMem_mem, Memory.read_write hm', if_pos rfl]
  calc wordOfBytes ((s.placeWord w).mem.read s.fetchAddr.toNat) ((s.placeWord w).mem.read (s.fetchAddr.toNat + 1))
      = wordOfBytes (highByte w) (lowByte w) := by rw [hhigh, hlow]
    _ = w := wordOfBytes_bytes w

/-- Settles O18: the placed word is fetched, and it decodes to the instruction. -/
theorem placedWordIsRunByTheNextStep : Obligations.PlacedWordIsRunByTheNextStep := by
  intro s w i hm h
  have hfetch : (s.withFetchWord 16 w).fetchWord = some (BitVec.ofNat 16 (w % 2 ^ 16)) := State.fetchWord_placeWord hm _
  rw [step_of_running (show (s.withFetchWord 16 w).mode = .running from rfl),
    runningStep_of_instr hfetch (decodeWord_of_decodeTableWord h)]

/-! ### The record of a fault (R180) -/

theorem readFatal_kind {a n : Nat} {k : FaultKind × Option Nat} (h : readFatal a n = some k) :
    k.1 = .memoryOutOfBounds ∧ k.2 ≠ none := by
  obtain ⟨-, rfl⟩ := Option.ite_some_none_eq_some.mp h
  exact ⟨rfl, nofun⟩

theorem writeFatal_kind {a n : Nat} {k : FaultKind × Option Nat} (h : writeFatal a n = some k) :
    (k.1 = .reservedWrite ∨ k.1 = .memoryOutOfBounds) ∧ k.2 ≠ none := by
  unfold writeFatal at h
  split at h
  · cases h
    exact ⟨.inl rfl, nofun⟩
  · exact (readFatal_kind h).imp_left .inr

/-- No instruction's own condition is a failing fetch, and it has a data address exactly for the two data faults. -/
theorem fatalOf_kind {s : State} {i : Instr} {k : FaultKind × Option Nat} (h : fatalOf s i = some k) :
    k.1 ≠ .fetchOutOfBounds ∧ (k.2 = none ↔ k.1 ≠ .memoryOutOfBounds ∧ k.1 ≠ .reservedWrite) := by
  cases i with
  | call | ret | skp | sknp =>
    obtain ⟨-, rfl⟩ := Option.ite_some_none_eq_some.mp h
    decide
  | drw | ldVxMem =>
    obtain ⟨hkind, haddr⟩ := readFatal_kind h
    simp [hkind, haddr]
  | ldB | ldMemVx =>
    obtain ⟨hkind | hkind, haddr⟩ := writeFatal_kind h
    · simp [hkind, haddr]
    · simp [hkind, haddr]
  | _ => cases h

/-! ### Everything a running step can do (R91, R182, R190) -/

/-- The step takes the fatal condition with its record, or the fetched instruction completes. -/
theorem runningStep_cases (s : State) :
    (∃ f, s.fatal = some f ∧ runningStep s = .next (s.halt f) ∧ f.fits s.pc ∧ f.word = s.fetchWord) ∨
    (s.fatal = none ∧ ∃ w i t, s.fetchWord = some w ∧ decodeWord w = some i ∧ runningStep s = .next t ∧
      Completes i s t) := by
  cases hw : s.fetchWord with
  | none =>
    exact .inl ⟨_, State.fatal_of_no_word hw, runningStep_of_no_word hw,
      ⟨rfl, iff_of_true rfl rfl, iff_of_true rfl ⟨nofun, nofun⟩⟩, rfl⟩
  | some w =>
    cases hd : decodeWord w with
    | none =>
      exact .inl ⟨_, State.fatal_of_unknown hw hd, runningStep_of_unknown hw hd,
        ⟨rfl, iff_of_false nofun nofun, iff_of_true rfl ⟨nofun, nofun⟩⟩, rfl⟩
    | some i =>
      have hfatal := State.fatal_of_instr hw hd
      have hstep := runningStep_of_instr hw hd
      cases hk : fatalOf s i with
      | some k =>
        rw [hk] at hfatal
        rw [exec_of_fatal hk, encode_of_decodeWord hd] at hstep
        obtain ⟨hkind, haddr⟩ := fatalOf_kind hk
        exact .inl ⟨_, hfatal, hstep, ⟨rfl, iff_of_false nofun hkind, haddr⟩, rfl⟩
      | none =>
        rw [hk] at hfatal
        obtain ⟨t, hexec, hcompletes⟩ := exec_of_no_fatal hk
        exact .inr ⟨hfatal, w, i, t, rfl, hd, hstep.trans hexec, hcompletes⟩

theorem modeAfter_running_ne_halted (i : Instr) (f : FaultRecord) : modeAfter i .running ≠ .halted f := by
  cases i <;> exact nofun

theorem Completes.not_halted {i : Instr} {s t : State} (h : Completes i s t) (hmode : s.mode = .running)
    (f : FaultRecord) : t.mode ≠ .halted f := by
  rw [h.mode, hmode]
  exact modeAfter_running_ne_halted i f

/-- A step that halts a running machine takes the fatal condition, whose record fits. -/
theorem halted_of_running {s t : State} {f : FaultRecord} (hmode : s.mode = .running) (hstep : step s = .next t)
    (hhalted : t.mode = .halted f) :
    t = s.halt f ∧ s.fatal = some f ∧ f.fits s.pc ∧ f.word = s.fetchWord := by
  rw [step_of_running hmode] at hstep
  obtain ⟨g, hfatal, hrun, hfits, hword⟩ | ⟨-, w, i, u, -, -, hrun, hcompletes⟩ := runningStep_cases s
  · rw [hrun] at hstep
    cases hstep
    cases hhalted
    exact ⟨rfl, hfatal, hfits, hword⟩
  · rw [hrun] at hstep
    cases hstep
    exact absurd hhalted (hcompletes.not_halted hmode f)

theorem step_of_fatal {s : State} {f : FaultRecord} (hmode : s.mode = .running) (hfatal : s.fatal = some f) :
    step s = .next (s.halt f) := by
  obtain ⟨g, hg, hrun, -, -⟩ | ⟨hnone, -⟩ := runningStep_cases s
  · rw [hfatal] at hg
    cases hg
    rw [step_of_running hmode, hrun]
  · rw [hnone] at hfatal; cases hfatal

theorem step_of_no_fatal {s : State} (hmode : s.mode = .running) (hfatal : s.fatal = none) :
    ∃ w i t, s.fetchWord = some w ∧ decodeWord w = some i ∧ step s = .next t ∧ Completes i s t := by
  rw [step_of_running hmode]
  obtain ⟨g, hg, -⟩ | ⟨-, hcompletes⟩ := runningStep_cases s
  · rw [hg] at hfatal; cases hfatal
  · exact hcompletes

/-- Settles O14: only the fatal condition halts a running machine, and it does. -/
theorem faultsAreRaisedExactlyOnTheirConditions : Obligations.FaultsAreRaisedExactlyOnTheirConditions := by
  intro s f hmode
  constructor
  · rintro ⟨t, hstep, hhalted⟩
    exact (halted_of_running hmode hstep hhalted).2.1
  · intro hfatal
    exact ⟨_, step_of_fatal hmode hfatal, rfl⟩

/-- Settles O15: a fatal condition is taken from the state at the start of the step. -/
theorem faultsArePrecise : Obligations.FaultsArePrecise := by
  intro s t f hmode hstep hhalted
  obtain ⟨ht, -, hfits, hword⟩ := halted_of_running hmode hstep hhalted
  exact ⟨ht, hfits, hword⟩

/-! ### Reports (R90) -/

theorem stepReport_of_next {s t : State} (h : step s = .next t) : stepReport s = some (reportOf s.mode t.mode) := by
  simp only [stepReport, h]

/-- Settles O11: the step is the identity, and its report reads the record from the mode. -/
theorem haltedStepReportsItsFaultAgain : Obligations.HaltedStepReportsItsFaultAgain := by
  intro s f hmode
  have hstep := step_of_halted hmode
  refine ⟨hstep, ?_⟩
  rw [stepReport_of_next hstep, hmode]
  rfl

/-- Settles O13: the report is read from the mode that the fault or the completion leaves. -/
theorem runningStepReports : Obligations.RunningStepReports := by
  intro s hmode
  constructor
  · intro f hfatal
    rw [stepReport_of_next (step_of_fatal hmode hfatal), hmode]
    rfl
  · intro hfatal
    obtain ⟨w, i, t, hw, hd, hstep, hcompletes⟩ := step_of_no_fatal hmode hfatal
    have hreport := stepReport_of_next hstep
    rw [hcompletes.mode, hmode] at hreport
    refine ⟨w, i, hw, hd, ?_, fun hi => ?_⟩
    · rintro x rfl
      exact hreport
    · rw [hreport, modeAfter_of_ne hi]
      rfl

/-! ### Every step (R97 to R100) -/

theorem awaitKeyStep_of_key {s : State} {k : KeyIndex} (x : Reg) (h : s.leastKey = some k) :
    awaitKeyStep x s = .next ((s.writeV x (BitVec.ofNat 8 k.val)).setMode .running) := by
  simp only [awaitKeyStep, h]

theorem awaitKeyStep_of_no_key {s : State} (x : Reg) (h : s.leastKey = none) : awaitKeyStep x s = .next s := by
  simp only [awaitKeyStep, h]

/-- Settles O10: the least pressed key is the model's least key. -/
theorem awaitingKeyStepStoresTheLeastPressedKey : Obligations.AwaitingKeyStepStoresTheLeastPressedKey := by
  intro s x hmode
  rw [step_of_awaitingKey hmode]
  refine ⟨fun k hk hleast => ?pressed, fun hnone => awaitKeyStep_of_no_key x ((s.leastKey_eq_none).mpr hnone)⟩
  case pressed =>
    have hlt : k.val < 2 ^ 8 := Nat.lt_trans k.isLt (by decide)
    have hframe := (s.writeV_unchangedExcept x (BitVec.ofNat 8 k.val)).trans (State.setMode_unchangedExcept _ .running)
    refine ⟨_, awaitKeyStep_of_key x ((s.leastKey_eq_some k).mpr ⟨hk, hleast⟩), ?_, rfl, hframe⟩
    rw [State.readV_setMode, State.readV_writeV_same, BitVec.toNat_ofNat, Nat.mod_eq_of_lt hlt]

/-- Settles O12, in each operating state. -/
theorem everyStepHasANextState : Obligations.EveryStepHasANextState := by
  intro s
  cases hmode : s.mode with
  | running =>
    rw [step_of_running hmode]
    obtain ⟨f, -, hrun, -⟩ | ⟨-, w, i, t, -, -, hrun, -⟩ := runningStep_cases s
    · exact ⟨_, hrun⟩
    · exact ⟨_, hrun⟩
  | awaitingKey x =>
    rw [step_of_awaitingKey hmode]
    cases hk : s.leastKey with
    | some k => exact ⟨_, awaitKeyStep_of_key x hk⟩
    | none => exact ⟨_, awaitKeyStep_of_no_key x hk⟩
  | halted f => exact ⟨_, step_of_halted hmode⟩

theorem modeAfter_running_eq_awaitingKey {i : Instr} {x : Reg} (h : modeAfter i .running = .awaitingKey x) :
    i = .ldVxK x := by
  cases i with
  | ldVxK y => cases h; rfl
  | _ => cases h

/-- Settles O16, in each operating state. -/
theorem modeChangesOnlyAsSpecified : Obligations.ModeChangesOnlyAsSpecified := by
  intro s t hstep
  obtain ⟨hmode, hrun⟩ | ⟨x, hmode, hawait⟩ | ⟨f, hmode, rfl⟩ := step_eq_next hstep
  · refine ⟨fun x hx => .inr ⟨hmode, ?_⟩, fun f _ => .inr hmode, fun _ f => by rw [hmode]; exact nofun⟩
    obtain ⟨f, -, hhalt, -⟩ | ⟨-, w, i, u, hw, hd, hcomplete, hcompletes⟩ := runningStep_cases s
    · rw [hhalt] at hrun
      cases hrun; cases hx
    · rw [hcomplete] at hrun
      cases hrun
      rw [hcompletes.mode, hmode] at hx
      exact ⟨w, hw, hd.trans (congrArg some (modeAfter_running_eq_awaitingKey hx))⟩
  · have hrunning : ∀ f, s.mode ≠ .halted f := fun f => by rw [hmode]; exact nofun
    obtain ⟨k, -, rfl⟩ | ⟨-, rfl⟩ := awaitKeyStep_eq_next hawait
    · exact ⟨nofun, nofun, fun _ => hrunning⟩
    · exact ⟨fun y hy => .inl hy, fun f hf => .inl hf, fun _ => hrunning⟩
  · exact ⟨fun y hy => .inl hy, fun g hg => .inl hg, fun hr => by rw [hmode] at hr; cases hr⟩

end Sys2Proof.Machine

namespace Sys2Proof.Machine

/-! ### Canonical memories are determined by what they read as -/

theorem Memory.wfFrom_cons {lo a : Nat} {b : Byte} {m : Memory} :
    Memory.wfFrom lo ((a, b) :: m) = true ↔ (lo ≤ a ∧ b ≠ Memory.blank a) ∧ Memory.wfFrom (a + 1) m = true := by
  simp only [Memory.wfFrom, Bool.and_eq_true, decide_eq_true_eq, bne_iff_ne]

@[simp] theorem Memory.read_cons_same (a : Nat) (b : Byte) (m : Memory) : Memory.read ((a, b) :: m) a = b :=
  if_pos rfl

theorem Memory.read_cons_other {a c : Nat} (b : Byte) (m : Memory) (h : a ≠ c) :
    Memory.read ((a, b) :: m) c = m.read c :=
  if_neg h

/-- A listed address reads as its byte, which is not the one it reads as unlisted, so the other memory lists it too. -/
theorem Memory.head_le_of_read_eq {lo a c : Nat} {b d : Byte} {m n : Memory}
    (hm : Memory.wfFrom lo ((a, b) :: m) = true) (hn : Memory.wfFrom lo ((c, d) :: n) = true)
    (h : ∀ x, Memory.read ((a, b) :: m) x = Memory.read ((c, d) :: n) x) : c ≤ a := by
  obtain ⟨⟨-, hb⟩, -⟩ := Memory.wfFrom_cons.mp hm
  obtain ⟨⟨-, hd⟩, hn'⟩ := Memory.wfFrom_cons.mp hn
  by_contra hlt
  have hn_from : Memory.wfFrom c ((c, d) :: n) = true := Memory.wfFrom_cons.mpr ⟨⟨Nat.le_refl c, hd⟩, hn'⟩
  have hblank := Memory.read_below hn_from (Nat.lt_of_not_le hlt)
  rw [← h a, Memory.read_cons_same] at hblank
  exact hb hblank

theorem Memory.ext_read {lo : Nat} {m n : Memory} (hm : Memory.wfFrom lo m = true) (hn : Memory.wfFrom lo n = true)
    (h : ∀ a, m.read a = n.read a) : m = n := by
  induction m generalizing lo n with
  | nil =>
    cases n with
    | nil => rfl
    | cons c n =>
      have hlisted := h c.1
      rw [Memory.read_cons_same] at hlisted
      exact absurd hlisted.symm (Memory.wfFrom_cons.mp hn).1.2
  | cons c m ih =>
    cases n with
    | nil =>
      have hlisted := h c.1
      rw [Memory.read_cons_same] at hlisted
      exact absurd hlisted (Memory.wfFrom_cons.mp hm).1.2
    | cons d n =>
      obtain ⟨a, b⟩ := c
      obtain ⟨a', b'⟩ := d
      obtain rfl : a = a' := Nat.le_antisymm (Memory.head_le_of_read_eq hn hm fun x => (h x).symm)
        (Memory.head_le_of_read_eq hm hn h)
      obtain rfl : b = b' := by simpa only [Memory.read_cons_same] using h a
      obtain ⟨-, hm'⟩ := Memory.wfFrom_cons.mp hm
      obtain ⟨-, hn'⟩ := Memory.wfFrom_cons.mp hn
      have htail : ∀ x, Memory.read m x = Memory.read n x := by
        intro x
        by_cases hx : a = x
        · subst hx
          rw [Memory.read_below hm' (Nat.lt_succ_self a), Memory.read_below hn' (Nat.lt_succ_self a)]
        · rw [← Memory.read_cons_other b m hx, h x, Memory.read_cons_other b n hx]
      rw [ih hm' hn' htail]

/-- Settles O22, by induction on the two lists: their first addresses agree, since each is the least that reads
otherwise than after reset. -/
theorem canonicalMemoriesAreEqualWhenTheyReadTheSame : Obligations.CanonicalMemoriesAreEqualWhenTheyReadTheSame :=
  fun _ _ => Memory.ext_read

/-! ### The invariant (R54, R180, R181) -/

/-- Settles O19: memory lists nothing and the machine runs. -/
theorem invariantHoldsAfterReset : Obligations.InvariantHoldsAfterReset :=
  ⟨rfl, rfl, nofun⟩

theorem Inv.halt {s : State} {f : FaultRecord} (h : Inv s) (hf : f.fits s.pc) : Inv (s.halt f) := by
  obtain ⟨hwf, hconfined, -⟩ := h
  refine ⟨hwf, hconfined, fun g hg => ?_⟩
  cases hg
  exact hf

/-- A change that leaves memory, mode and `pc` alone keeps the invariant. -/
theorem Inv.of_same {s t : State} (h : Inv s) (hmem : t.mem = s.mem) (hmode : t.mode = s.mode) (hpc : t.pc = s.pc) :
    Inv t := by
  obtain ⟨hwf, hconfined, hhalted⟩ := h
  exact ⟨by rw [hmem, hwf], by rw [hmem, hconfined], fun f hf => by rw [hpc]; exact hhalted f (hmode ▸ hf)⟩

theorem Completes.inv {i : Instr} {s t : State} (h : Completes i s t) (hmode : s.mode = .running) (hs : Inv s) :
    Inv t := by
  obtain ⟨hwf, hconfined, -⟩ := hs
  have hrunning : ∀ f, t.mode = .halted f → f.fits t.pc := fun f hf => absurd hf (h.not_halted hmode f)
  obtain hmem | ⟨bs, hlo, hhi, hmem⟩ := h.mem
  · exact ⟨by rw [hmem, hwf], by rw [hmem, hconfined], hrunning⟩
  · refine ⟨?_, ?_, hrunning⟩
    · rw [hmem, Memory.wf_writeBytes hwf]
    · rw [hmem, Memory.confined_writeBytes hconfined bs hlo hhi]

/-- Settles O20, in each operating state; a running machine halts with a record that fits, or its instruction
completes. -/
theorem everyStepKeepsTheInvariant : Obligations.EveryStepKeepsTheInvariant := by
  intro s t hinv hstep
  obtain ⟨hmode, hrun⟩ | ⟨x, hmode, hawait⟩ | ⟨f, -, rfl⟩ := step_eq_next hstep
  · obtain ⟨f, -, hhalt, hfits, -⟩ | ⟨-, w, i, u, -, -, hcomplete, hcompletes⟩ := runningStep_cases s
    · rw [hhalt] at hrun
      cases hrun
      exact hinv.halt hfits
    · rw [hcomplete] at hrun
      cases hrun
      exact hcompletes.inv hmode hinv
  · obtain ⟨k, -, rfl⟩ | ⟨-, rfl⟩ := awaitKeyStep_eq_next hawait
    · obtain ⟨hwf, hconfined, -⟩ := hinv
      exact ⟨hwf, hconfined, nofun⟩
    · exact hinv
  · exact hinv

/-! ### The driver's operations: what each does when it is not refused (R37, R38, R203) -/

theorem State.setKey_of_lt {s : State} {index : Nat} (h : index < 16) (pressed : Bool) :
    s.setKey index pressed = some { s with key := s.key.set index pressed h } :=
  dif_pos h

theorem State.setKey_of_le {s : State} {index : Nat} (h : 16 ≤ index) (pressed : Bool) :
    s.setKey index pressed = none :=
  dif_neg (Nat.not_lt.mpr h)

theorem State.loadProgram_of_le {s : State} {bytes : List Byte} (h : bytes.length ≤ 3584) :
    s.loadProgram bytes = some (s.setMem (s.mem.writeBytes 0x200 bytes)) :=
  if_pos h

theorem State.loadProgram_of_lt {s : State} {bytes : List Byte} (h : 3584 < bytes.length) :
    s.loadProgram bytes = none :=
  if_neg (Nat.not_le.mpr h)

theorem transact_step {s t : State} (h : step s = .next t) :
    transact .step s = .next (t, .stepped (reportOf s.mode t.mode)) := by
  simp only [transact, h]

theorem transact_setKey_of_lt {s : State} {index : Nat} (h : index < 16) (pressed : Bool) :
    transact (.setKey index pressed) s = .next ({ s with key := s.key.set index pressed h }, .done) := by
  simp only [transact, State.setKey_of_lt h]

theorem transact_setKey_of_le {s : State} {index : Nat} (h : 16 ≤ index) (pressed : Bool) :
    transact (.setKey index pressed) s = .refused (.keyIndexUndefined index) := by
  simp only [transact, State.setKey_of_le h]

theorem transact_loadProgram_of_le {s : State} {bytes : List Byte} (h : bytes.length ≤ 3584) :
    transact (.loadProgram bytes) s = .next (s.setMem (s.mem.writeBytes 0x200 bytes), .done) := by
  simp only [transact, State.loadProgram_of_le h]

theorem transact_loadProgram_of_lt {s : State} {bytes : List Byte} (h : 3584 < bytes.length) :
    transact (.loadProgram bytes) s = .refused (.programTooLong bytes.length) := by
  simp only [transact, State.loadProgram_of_lt h]

theorem transact_tickTimers (s : State) : transact .tickTimers s = .next (s.tickTimers, .ticked s.soundEvent) := rfl

theorem transact_displaySnapshot (s : State) :
    transact .displaySnapshot s = .next (s, .grid s.displaySnapshot) := rfl

theorem tickDown_toNat (b : Byte) : (tickDown b).toNat = b.toNat - 1 := by
  unfold tickDown
  split
  · next h => subst h; rfl
  · next h =>
    have hpos : b.toNat ≠ 0 := fun h0 => h (BitVec.eq_of_toNat_eq h0)
    exact BitVec.toNat_sub_of_le (BitVec.le_def.mpr (Nat.one_le_iff_ne_zero.mpr hpos))

/-- Settles O50: both timers tick down, and the event is the sound timer's value 1 before the tick. -/
theorem tickDecrementsEachTimer : Obligations.TickDecrementsEachTimer := by
  intro s
  have hst := tickDown_toNat s.st
  have hframe := (s.setDt_unchangedExcept (tickDown s.dt)).trans
    ((s.setDt (tickDown s.dt)).setSt_unchangedExcept (tickDown s.st))
  refine ⟨_, _, transact_tickTimers s, tickDown_toNat s.dt, hst, ?event, hframe⟩
  case event =>
    rw [State.tickTimers_st, hst, State.soundEvent, beq_iff_eq, ← BitVec.toNat_inj, show (1 : Byte).toNat = 1 from rfl]
    omega

/-- Settles O51: the index is within the keys, or the call is refused. -/
theorem setKeyWritesOneKey : Obligations.SetKeyWritesOneKey := by
  intro index pressed s
  refine ⟨?_, fun h => transact_setKey_of_le h pressed⟩
  rintro k rfl
  refine ⟨_, transact_setKey_of_lt k.isLt pressed, ?written, fun c hc => ?frame⟩
  case written => exact Vector.getElem_set_self k.isLt
  case frame =>
    cases c with
    | key j =>
      have hj : k.val ≠ j.val := fun h => hc (congrArg Component.key (Fin.ext h.symm))
      exact Vector.getElem_set_ne k.isLt j.isLt hj
    | _ => rfl

/-- Settles O52: the load is one sequence of writes from program-start on, or the call is refused. -/
theorem loadProgramCopiesItsBytes : Obligations.LoadProgramCopiesItsBytes := by
  intro bytes s hm
  refine ⟨fun hlen => ⟨_, transact_loadProgram_of_le hlen, fun k b hk => ?_, ?frame⟩, transact_loadProgram_of_lt⟩
  · have hlt : k < bytes.length := (List.getElem?_eq_some_iff.mp hk).1
    rw [State.setMem_mem, Memory.read_writeBytes hm, if_pos (by omega), Nat.add_sub_cancel_left,
      List.getD_eq_getElem?_getD, hk, Option.getD_some]
  case frame => exact State.setMem_writeBytes_unchangedExcept hm 0x200 bytes

theorem fontTable_length : fontTable.length = 80 := rfl

/-- What memory holds after reset (R43): beyond the font table the list's default is the zero byte. -/
theorem Memory.blank_eq (a : Nat) : Memory.blank a = fontTable.getD a 0 := if_pos (Nat.zero_le a)

theorem Memory.blank_eq_ite (a : Nat) : Memory.blank a = if a < 80 then fontTable.getD a 0 else 0 := by
  split
  · exact Memory.blank_eq a
  · next h => rw [Memory.blank_eq, List.getD_eq_default _ _ (fontTable_length ▸ Nat.le_of_not_lt h)]

/-- Settles O53: the reset state is a literal, read component by component. -/
theorem resetGivesTheResetTable : Obligations.ResetGivesTheResetTable := by
  intro s
  exact ⟨_, transact_reset s, fun r => Vector.getElem_replicate r.isLt, rfl, rfl,
    fun k => Vector.getElem_replicate k.isLt, rfl, Memory.blank_eq_ite, Display.cell_dark,
    fun k => Vector.getElem_replicate k.isLt, rfl, rfl, rfl, transact_reset s⟩

/-- The snapshot is the display's rows one after the other, as one vector. -/
theorem State.displaySnapshot_eq (s : State) : s.displaySnapshot = s.disp.flatten.toList := by
  simp only [State.displaySnapshot, Vector.flatten, List.flatMap_def, Vector.toList, Array.toList_flatten,
    Array.toList_map, List.map_map]
  rfl

/-- Settles O54: the cell with the number `64 * y + x` of the flattened display is the one at column `x`, row `y`. -/
theorem snapshotIsRowMajor : Obligations.SnapshotIsRowMajor := by
  intro s
  refine ⟨_, transact_displaySnapshot s, ?length, fun x y => ?cell⟩
  case length => exact (congrArg List.length s.displaySnapshot_eq).trans Vector.length_toList
  case cell =>
    have hx : x.val < 64 := x.isLt
    have hy : y.val < 32 := y.isLt
    have hlt : y.val * 64 + x.val < 32 * 64 := by omega
    have hrow : (y.val * 64 + x.val) / 64 = y.val := by omega
    have hcol : (y.val * 64 + x.val) % 64 = x.val := by omega
    rw [State.displaySnapshot_eq, Vector.getElem?_toList, Vector.getElem?_eq_getElem hlt, Vector.getElem_flatten]
    simp only [hrow, hcol, Display.cell]

/-! ### Schedules (R62, R175) -/

theorem afterTransaction_of_next {s t : State} {op : Transaction} {r : Response} (h : transact op s = .next (t, r)) :
    afterTransaction s op = t := by
  simp only [afterTransaction, h]

theorem afterTransaction_of_refused {s : State} {op : Transaction} {r : Refusal} (h : transact op s = .refused r) :
    afterTransaction s op = s := by
  simp only [afterTransaction, h]

theorem Inv.afterTransaction {s : State} (h : Inv s) (op : Transaction) : Inv (afterTransaction s op) := by
  cases op with
  | step =>
    obtain ⟨t, ht⟩ := everyStepHasANextState s
    rw [afterTransaction_of_next (transact_step ht)]
    exact everyStepKeepsTheInvariant s t h ht
  | tickTimers =>
    rw [afterTransaction_of_next (transact_tickTimers s)]
    exact h.of_same rfl rfl rfl
  | setKey index pressed =>
    by_cases hindex : index < 16
    · rw [afterTransaction_of_next (transact_setKey_of_lt hindex pressed)]
      exact h.of_same rfl rfl rfl
    · rw [afterTransaction_of_refused (transact_setKey_of_le (Nat.le_of_not_lt hindex) pressed)]
      exact h
  | loadProgram bytes =>
    by_cases hlen : bytes.length ≤ 3584
    · obtain ⟨hwf, hconfined, hhalted⟩ := h
      rw [afterTransaction_of_next (transact_loadProgram_of_le hlen)]
      refine ⟨Memory.wf_writeBytes hwf _ _, Memory.confined_writeBytes hconfined bytes (Nat.le_refl _) ?_, hhalted⟩
      simp only [Config.memSize]; omega
    · rw [afterTransaction_of_refused (transact_loadProgram_of_lt (Nat.lt_of_not_le hlen))]
      exact h
  | reset =>
    rw [afterTransaction_of_next (transact_reset s)]
    exact invariantHoldsAfterReset.of_same rfl rfl rfl
  | displaySnapshot =>
    rw [afterTransaction_of_next (transact_displaySnapshot s)]
    exact h

theorem Inv.runSchedule {s : State} (h : Inv s) (ops : List Transaction) : Inv (runSchedule s ops) := by
  induction ops generalizing s with
  | nil => exact h
  | cons op ops ih => exact ih (h.afterTransaction op)

/-- Settles O21, by induction on the schedule: memory stays confined, and a confined memory reads as after reset in the
reserved region. -/
theorem fontSurvivesEverySchedule : Obligations.FontSurvivesEverySchedule := by
  intro s ops hinv
  obtain ⟨hwf, hconfined, hhalted⟩ := hinv.runSchedule ops
  exact ⟨⟨hwf, hconfined, hhalted⟩, fun a ha => (Memory.read_reserved hconfined ha).trans (Memory.blank_eq a)⟩

end Sys2Proof.Machine

namespace Sys2Proof.Machine

/-! ### Replacing what most instructions neither read nor write: the stack, `sp`, the sound timer, the count of draws -/

/-- The state with another stack, `sp`, sound timer and count of draws. -/
def State.withUnread (s : State) (stack : Vector Addr 16) (sp : Fin 17) (st : Byte) (draws : Nat) : State :=
  { s with stack := stack, sp := sp, st := st, draws := draws }

/-- The instructions that read or write one of them. -/
def touchesUnread : Instr → Bool
  | .call _ | .ret | .ldStVx _ | .rnd _ _ => true
  | _ => false

/-- The outcome with its next state changed. -/
def mapNext (f : State → State) : Result → Result
  | .next t => .next (f t)
  | .fault r => .fault r
  | .refused r => .refused r

section
variable (s : State) (stack : Vector Addr 16) (sp : Fin 17) (st : Byte) (draws : Nat)

theorem State.skipIf_withUnread (taken : Bool) :
    (s.withUnread stack sp st draws).skipIf taken = (s.skipIf taken).withUnread stack sp st draws := by
  cases taken <;> rfl

theorem State.writeVs_withUnread (r : Nat) (bs : List Byte) :
    (s.withUnread stack sp st draws).writeVs r bs = (s.writeVs r bs).withUnread stack sp st draws := by
  induction bs generalizing s r with
  | nil => rfl
  | cons b bs ih =>
    simp only [State.writeVs]
    split
    · exact ih (s.writeV ⟨r, _⟩ b) (r + 1)
    · rfl

theorem State.readVs_withUnread (r n : Nat) : (s.withUnread stack sp st draws).readVs r n = s.readVs r n := by
  induction n generalizing r with
  | zero => rfl
  | succ n ih =>
    simp only [State.readVs, ih]
    rfl

theorem fatalOf_withUnread {i : Instr} (hi : touchesUnread i = false) :
    fatalOf (s.withUnread stack sp st draws) i = fatalOf s i := by
  cases i with
  | call | ret => cases hi
  | _ => rfl

/-- All other instructions do the same whatever the stack, `sp`, the sound timer and the count of draws are, and leave
these as they are. -/
theorem exec_withUnread {i : Instr} (hi : touchesUnread i = false) :
    exec i (s.withUnread stack sp st draws) = mapNext (·.withUnread stack sp st draws) (exec i s) := by
  have hsame := fatalOf_withUnread s stack sp st draws hi
  cases hk : fatalOf s i with
  | some k =>
    rw [exec_of_fatal hk, exec_of_fatal (hsame.trans hk)]
    rfl
  | none =>
    have hk' := hsame.trans hk
    cases i with
    | call | ret | ldStVx | rnd => cases hi
    | seImm | sneImm | seReg | sneReg => exact congrArg Host.Outcome.next (State.skipIf_withUnread s.advance ..)
    | skp x =>
      have hkey : (s.readV x).toNat < 16 := readV_lt_of_no_key_fault hk
      rw [exec_skp_of_key (k := ⟨_, hkey⟩) rfl,
        exec_skp_of_key (s := s.withUnread stack sp st draws) (k := ⟨_, hkey⟩) rfl]
      exact congrArg Host.Outcome.next (State.skipIf_withUnread s.advance ..)
    | sknp x =>
      have hkey : (s.readV x).toNat < 16 := readV_lt_of_no_key_fault hk
      rw [exec_sknp_of_key (k := ⟨_, hkey⟩) rfl,
        exec_sknp_of_key (s := s.withUnread stack sp st draws) (k := ⟨_, hkey⟩) rfl]
      exact congrArg Host.Outcome.next (State.skipIf_withUnread s.advance ..)
    | drw =>
      rw [exec_drw hk, exec_drw hk']
      rfl
    | ldB =>
      rw [exec_ldB hk, exec_ldB hk']
      rfl
    | ldMemVx x =>
      rw [exec_ldMemVx hk, exec_ldMemVx hk', State.readVs_withUnread]
      rfl
    | ldVxMem x =>
      rw [exec_ldVxMem hk, exec_ldVxMem hk']
      exact congrArg Host.Outcome.next (State.writeVs_withUnread s.advance ..)
    | _ => rfl

end

/-! ### Two runs that differ only there -/

/-- The states agree in everything but the sound timer, the count of draws and inactive stack slots. -/
structure SameButUnread (s s' : State) : Prop where
  same : s' = s.withUnread s'.stack s.sp s'.st s'.draws
  active : ∀ k : Fin 16, k.val < s.sp.val → s'.slot k = s.slot k

/-- `t` and `t'` agree as `s` and `s'` do, and in each further part in which `s` and `s'` do. -/
structure Follows (s s' t t' : State) : Prop extends SameButUnread t t' where
  stack : s'.stack = s.stack → t'.stack = t.stack
  st : s'.st = s.st → t'.st = t.st
  draws : s'.draws = s.draws → t'.draws = t.draws

theorem SameButUnread.exists_withUnread {s s' : State} (h : SameButUnread s s') :
    ∃ stack st draws, s' = s.withUnread stack s.sp st draws ∧
      ∀ k : Fin 16, k.val < s.sp.val → (s.withUnread stack s.sp st draws).slot k = s.slot k :=
  ⟨_, _, _, h.same, h.same ▸ h.active⟩

theorem SameButUnread.pc {s s' : State} (h : SameButUnread s s') : s'.pc = s.pc := by
  rw [h.same]; rfl

theorem SameButUnread.mode {s s' : State} (h : SameButUnread s s') : s'.mode = s.mode := by
  rw [h.same]; rfl

theorem SameButUnread.fatalOf {s s' : State} (h : SameButUnread s s') (i : Instr) : fatalOf s' i = fatalOf s i := by
  rw [h.same]
  cases i <;> rfl

theorem SameButUnread.fetchWord {s s' : State} (h : SameButUnread s s') : s'.fetchWord = s.fetchWord := by
  rw [h.same]; rfl

theorem SameButUnread.leastKey {s s' : State} (h : SameButUnread s s') : s'.leastKey = s.leastKey := by
  rw [h.same]; rfl

theorem State.slot_eq_of_stack_eq {s t : State} (h : t.stack = s.stack) (k : Fin 16) : t.slot k = s.slot k := by
  rw [State.slot, h, State.slot]

/-- The change commutes with replacing the unread parts. -/
def Commutes (o : State → Result) : Prop :=
  ∀ s stack sp st draws, o (s.withUnread stack sp st draws) = mapNext (·.withUnread stack sp st draws) (o s)

/-- A change that commutes with replacing the unread parts leaves them as they are: it does so with replacing each by
itself. -/
theorem Commutes.keeps {o : State → Result} (ho : Commutes o) {s t : State} (ht : o s = .next t) :
    t.stack = s.stack ∧ t.sp = s.sp ∧ t.st = s.st ∧ t.draws = s.draws := by
  have hself := ho s s.stack s.sp s.st s.draws
  rw [show s.withUnread s.stack s.sp s.st s.draws = s from rfl, ht] at hself
  have hkeeps : t = t.withUnread s.stack s.sp s.st s.draws := Host.Outcome.next.inj hself
  rw [hkeeps]
  exact ⟨rfl, rfl, rfl, rfl⟩

theorem Commutes.follows {o : State → Result} (ho : Commutes o) {s s' t : State} (h : SameButUnread s s')
    (ht : o s = .next t) : ∃ t', o s' = .next t' ∧ Follows s s' t t' := by
  obtain ⟨hstack, hsp, hst, hdraws⟩ := ho.keeps ht
  have hrun : o s' = .next (t.withUnread s'.stack s.sp s'.st s'.draws) := by
    rw [h.same, ho, ht]
    rfl
  refine ⟨_, hrun, ⟨?same, fun k hk => ?active⟩, hstack.symm ▸ id, hst.symm ▸ id, hdraws.symm ▸ id⟩
  case same => rw [hsp]; rfl
  case active => exact (h.active k (hsp ▸ hk)).trans (State.slot_eq_of_stack_eq hstack k).symm

theorem halt_commutes (f : FaultRecord) : Commutes fun s => .next (s.halt f) := fun _ _ _ _ _ => rfl

theorem exec_follows_of_fatal {i : Instr} {s s' t : State} {k : FaultKind × Option Nat} (h : SameButUnread s s')
    (hk : fatalOf s i = some k) (ht : exec i s = .next t) : ∃ t', exec i s' = .next t' ∧ Follows s s' t t' := by
  rw [exec_of_fatal hk] at ht
  rw [exec_of_fatal ((h.fatalOf i).trans hk), h.pc]
  exact (halt_commutes _).follows h ht

theorem exec_commutes {i : Instr} (hi : touchesUnread i = false) : Commutes (exec i) :=
  fun s stack sp st draws => exec_withUnread s stack sp st draws hi

theorem awaitKeyStep_commutes (x : Reg) : Commutes (awaitKeyStep x) := by
  intro s stack sp st draws
  have hkey : (s.withUnread stack sp st draws).leastKey = s.leastKey := rfl
  cases hk : s.leastKey with
  | some k =>
    rw [awaitKeyStep_of_key x hk, awaitKeyStep_of_key x (hkey.trans hk)]
    rfl
  | none =>
    rw [awaitKeyStep_of_no_key x hk, awaitKeyStep_of_no_key x (hkey.trans hk)]
    rfl

/-! ### The four instructions that read or write the parts in question -/

theorem exec_call_eq (nnn : Addr12) {s : State} (h : s.sp.val < 16) : exec (.call nnn) s = .next
    { s with stack := s.stack.set s.sp.val (s.pc + 2) h, sp := ⟨s.sp.val + 1, Nat.succ_lt_succ h⟩,
             pc := addrOperand nnn } := by
  obtain ⟨t, hpush, hexec⟩ := exec_call_of_lt nnn h
  rw [State.push_of_lt s.advance (s.pc + 2) h] at hpush
  cases hpush
  exact hexec

theorem exec_ret_eq {s : State} {k : Fin 16} (h : s.sp.val = k.val + 1) :
    exec .ret s = .next { s with sp := k.castSucc, pc := s.slot k } := by
  obtain ⟨a, t, hpop, hexec⟩ := exec_ret_of_pos (h ▸ Nat.succ_pos k.val : 0 < s.sp.val)
  obtain ⟨hsp, ha, ht⟩ := State.pop_eq_some hpop
  have hk : t.sp = k.castSucc := Fin.ext (Nat.succ.inj (hsp.trans h))
  rw [hexec, ha k h.symm, ht, hk]
  rfl

theorem exec_call_follows {nnn : Addr12} {s s' t : State} (h : SameButUnread s s')
    (hk : fatalOf s (.call nnn) = none) (ht : exec (.call nnn) s = .next t) :
    ∃ t', exec (.call nnn) s' = .next t' ∧ Follows s s' t t' := by
  have hlt := sp_lt_of_no_overflow hk
  obtain ⟨stack, st, draws, rfl, hactive⟩ := h.exists_withUnread
  rw [exec_call_eq nnn hlt] at ht
  cases ht
  refine ⟨_, exec_call_eq nnn (s := s.withUnread stack s.sp st draws) hlt, ⟨rfl, fun k hk => ?active⟩,
    fun hstack => ?stack, id, id⟩
  case active =>
    have hk : k.val < s.sp.val + 1 := hk
    simp only [State.slot, State.withUnread, Vector.getElem_set]
    split
    · rfl
    · next hne => exact hactive k (by omega)
  case stack =>
    have hstack : stack = s.stack := hstack
    subst hstack
    rfl

theorem exec_ret_follows {s s' t : State} (h : SameButUnread s s') (hk : fatalOf s .ret = none)
    (ht : exec .ret s = .next t) : ∃ t', exec .ret s' = .next t' ∧ Follows s s' t t' := by
  have hpos := sp_pos_of_no_underflow hk
  obtain ⟨k, hsp⟩ : ∃ k : Fin 16, s.sp.val = k.val + 1 :=
    ⟨⟨s.sp.val - 1, by have : s.sp.val < 17 := s.sp.isLt; omega⟩, by simp only; omega⟩
  obtain ⟨stack, st, draws, rfl, hactive⟩ := h.exists_withUnread
  have hnewest := hactive k (by omega)
  rw [exec_ret_eq hsp] at ht
  cases ht
  refine ⟨_, exec_ret_eq (s := s.withUnread stack s.sp st draws) hsp, ⟨?same, fun j hj => ?active⟩, id, id, id⟩
  case same => rw [hnewest]; rfl
  case active =>
    have hj : j.val < k.val := hj
    exact hactive j (by omega)

theorem exec_ldStVx_follows (x : Reg) {s s' t : State} (h : SameButUnread s s') (ht : exec (.ldStVx x) s = .next t) :
    ∃ t', exec (.ldStVx x) s' = .next t' ∧ Follows s s' t t' := by
  rw [exec_ldStVx] at ht
  cases ht
  have hread : s'.readV x = s.readV x := by rw [h.same]; rfl
  refine ⟨_, exec_ldStVx x s', ⟨?same, h.active⟩, id, fun _ => hread, id⟩
  case same => rw [h.same]; rfl

theorem exec_rnd_follows (x : Reg) (nn : Byte) {s s' t : State} (h : SameButUnread s s') (hdraws : s'.draws = s.draws)
    (ht : exec (.rnd x nn) s = .next t) : ∃ t', exec (.rnd x nn) s' = .next t' ∧ Follows s s' t t' := by
  rw [exec_rnd] at ht
  cases ht
  refine ⟨_, exec_rnd x nn s', ⟨?same, h.active⟩, id, id, fun _ => congrArg (· + 1) hdraws⟩
  case same => rw [hdraws, h.same]; rfl

/-! ### Every instruction and every step -/

theorem exec_follows {i : Instr} {s s' t : State} (h : SameButUnread s s')
    (hdraw : ∀ x nn, i = .rnd x nn → s'.draws = s.draws) (ht : exec i s = .next t) :
    ∃ t', exec i s' = .next t' ∧ Follows s s' t t' := by
  cases hk : fatalOf s i with
  | some k => exact exec_follows_of_fatal h hk ht
  | none =>
    cases i with
    | call nnn => exact exec_call_follows h hk ht
    | ret => exact exec_ret_follows h hk ht
    | ldStVx x => exact exec_ldStVx_follows x h ht
    | rnd x nn => exact exec_rnd_follows x nn h (hdraw x nn rfl) ht
    | _ => exact (exec_commutes rfl).follows h ht

/-- The step of a running machine is a CXNN: the fetched word decodes to it. -/
def State.drawsNext (s : State) (x : Reg) (nn : Byte) : Prop :=
  s.mode = .running ∧ ∃ w, s.fetchWord = some w ∧ decodeWord w = some (.rnd x nn)

theorem step_of_drawsNext {s : State} {x : Reg} {nn : Byte} (h : s.drawsNext x nn) :
    step s = .next (s.advance.drawn.writeV x (Config.randomByte s.draws &&& nn)) := by
  obtain ⟨hmode, w, hw, hd⟩ := h
  rw [step_of_running hmode, runningStep_of_instr hw hd, exec_rnd]

theorem runningStep_follows {s s' t : State} (h : SameButUnread s s') (hmode : s.mode = .running)
    (hdraw : ∀ x nn, s.drawsNext x nn → s'.draws = s.draws) (ht : runningStep s = .next t) :
    ∃ t', runningStep s' = .next t' ∧ Follows s s' t t' := by
  obtain ⟨hw, rfl⟩ | ⟨w, hw, hd, rfl⟩ | ⟨w, i, hw, hd, hexec⟩ := runningStep_eq_next ht
  · rw [runningStep_of_no_word (h.fetchWord.trans hw), h.pc]
    exact (halt_commutes _).follows h rfl
  · rw [runningStep_of_unknown (h.fetchWord.trans hw) hd, h.pc]
    exact (halt_commutes _).follows h rfl
  · rw [runningStep_of_instr (h.fetchWord.trans hw) hd]
    exact exec_follows h (fun x nn hi => hdraw x nn ⟨hmode, w, hw, hi ▸ hd⟩) hexec

/-- Steps of two states that agree but for the unread parts agree so again, with the same report; a CXNN is given the
same draw in both. -/
theorem step_follows {s s' t : State} (h : SameButUnread s s')
    (hdraw : ∀ x nn, s.drawsNext x nn → s'.draws = s.draws) (ht : step s = .next t) :
    ∃ t', step s' = .next t' ∧ Follows s s' t t' ∧ stepReport s' = stepReport s := by
  have hstep : ∃ t', step s' = .next t' ∧ Follows s s' t t' := by
    obtain ⟨hmode, hrun⟩ | ⟨x, hmode, hawait⟩ | ⟨f, hmode, rfl⟩ := step_eq_next ht
    · rw [step_of_running (h.mode.trans hmode)]
      exact runningStep_follows h hmode hdraw hrun
    · rw [step_of_awaitingKey (h.mode.trans hmode)]
      exact (awaitKeyStep_commutes x).follows h hawait
    · exact ⟨s', step_of_halted (h.mode.trans hmode), h, id, id, id⟩
  obtain ⟨t', ht', hfollows⟩ := hstep
  exact ⟨t', ht', hfollows, by rw [stepReport_of_next ht', stepReport_of_next ht, h.mode, hfollows.mode]⟩

/-- Settles O56: of the unread parts only inactive slots differ before the step, so only they do after it. -/
theorem inactiveStackSlotsAreUnobservable : Obligations.InactiveStackSlotsAreUnobservable := by
  rintro s s' t ⟨hs, hactive⟩ ht
  have hst : s'.st = s.st := by rw [hs]
  have hdraws : s'.draws = s.draws := by rw [hs]
  have hsame : SameButUnread s s' := ⟨by rw [hst, hdraws]; exact hs, hactive⟩
  obtain ⟨t', ht', hfollows, hreport⟩ := step_follows hsame (fun _ _ _ => hdraws) ht
  refine ⟨t', ht', ⟨?_, hfollows.active⟩, hreport⟩
  have hresult := hfollows.same
  rwa [hfollows.st hst, hfollows.draws hdraws] at hresult

/-- Settles O57: of the unread parts only the sound timer differs before the step, so only it does after it. -/
theorem soundTimerIsNeverRead : Obligations.SoundTimerIsNeverRead := by
  intro s s' t hs ht
  have hs : s' = { s with st := s'.st } := hs
  have hstack : s'.stack = s.stack := by rw [hs]
  have hdraws : s'.draws = s.draws := by rw [hs]
  have hsame : SameButUnread s s' := ⟨by rw [hstack, hdraws]; exact hs, fun k _ => State.slot_eq_of_stack_eq hstack k⟩
  obtain ⟨t', ht', hfollows, hreport⟩ := step_follows hsame (fun _ _ _ => hdraws) ht
  have hresult := hfollows.same
  rw [hfollows.stack hstack, hfollows.draws hdraws] at hresult
  exact ⟨t', ht', hresult, hreport⟩

theorem State.writeV_writeV_same (s : State) (x : Reg) (a b : Byte) : (s.writeV x a).writeV x b = s.writeV x b := by
  simp only [State.writeV, Vector.set_set]

/-- Settles O59: a CXNN writes its own draw in each of the two runs; any other step leaves only the count of draws
different. -/
theorem drawsReachTheMachineOnlyThroughRandom : Obligations.DrawsReachTheMachineOnlyThroughRandom := by
  intro s s' t hs ht
  have hs : s' = s.withUnread s.stack s.sp s.st s'.draws := State.ext_aggregate hs rfl
  by_cases hdraw : ∃ x nn, s.drawsNext x nn
  · obtain ⟨x, nn, hnext⟩ := hdraw
    have hstep := step_of_drawsNext hnext
    have hnext' : s'.drawsNext x nn := by rw [hs]; exact hnext
    have hstep' := step_of_drawsNext hnext'
    rw [hstep] at ht
    cases ht
    obtain ⟨hmode, w, hw, hd⟩ := hnext
    refine ⟨_, hstep', ?report, .inr ⟨w, x, nn, hmode, hw, hd, ?draw⟩⟩
    case report =>
      rw [stepReport_of_next hstep', stepReport_of_next hstep, hs]
      rfl
    case draw =>
      rw [State.writeV_writeV_same, hs]
      rfl
  · have hst : s'.st = s.st := by rw [hs]; rfl
    have hstack : s'.stack = s.stack := by rw [hs]; rfl
    have hsame : SameButUnread s s' := ⟨by rw [hst, hstack]; exact hs, fun k _ => State.slot_eq_of_stack_eq hstack k⟩
    obtain ⟨t', ht', hfollows, hreport⟩ := step_follows hsame (fun x nn h => absurd ⟨x, nn, h⟩ hdraw) ht
    have hresult := hfollows.same
    rw [hfollows.stack hstack, hfollows.st hst] at hresult
    exact ⟨t', ht', hreport, .inl (by rw [hresult]; rfl)⟩

end Sys2Proof.Machine
